-- ==== Sys2Proof/Word.lean ====
section
/-! DEFINITION. The word types of the MPI core and the radix of its digits (00_scope.md R5, R6, R9). -/

namespace Sys2Proof

/-- A 32-bit word: a window register, an instruction word, the operand imm, or the storage word of a digit
(00_scope.md R5, R6). -/
abbrev Word := BitVec 32

/-- An 8-bit field: the fault code STATUS.FCODE (10_state.md R31), or a byte lane of a host bus (20_memory.md R63). -/
abbrev Byte := BitVec 8

/-- DIGIT_BITS (00_scope.md R5): the number of value bits of one digit. -/
abbrev digitBits : Nat := 31

/-- The radix B = 2^31 = 0x80000000 (00_scope.md R5). `x % radix` is `x & 0x7FFFFFFF` and `x / radix` is `x >> 31`
(00_scope.md R9). -/
abbrev radix : Nat := 2147483648

end Sys2Proof
end

