-- ==== Sys2Proof/Config.lean ====
section
/-! DEFINITION. The OPEN parameters of the spec (00_scope.md R8, 20_memory.md R61, 93_implementation_defined.md P1, P2):
what one machine fixes and the spec does not. They are plain data held in State, so that every statement is about
every value of them (log 1, log 2). -/

namespace Sys2Proof

/-- The parameters of one machine. -/
structure Config where
  /-- MAX_DIGITS, the largest capacity of a register, in digits (00_scope.md R8). -/
  maxDigits : Nat
  /-- WINDOW_BASE, the host address of the register window's offset 0 (20_memory.md R61). -/
  windowBase : Nat
deriving DecidableEq, Repr

/-- The bounds 00_scope.md R8 sets: 3 <= MAX_DIGITS <= 2^24 - 1. -/
abbrev Config.legal (c : Config) : Prop := 3 ≤ c.maxDigits ∧ c.maxDigits ≤ 16777215

/-- The parameters State.reset takes. DESIGN CHOICE (log 1, log 2; unsafe): MAX_DIGITS = 8 is the instance
95_test_vectors.md uses; WINDOW_BASE = 0 is the model's own. -/
def Config.standard : Config := { maxDigits := 8, windowBase := 0 }

end Sys2Proof
end

