-- ==== Sys2Proof/Syntax.lean ====
section
/-! DEFINITION. Commands and instructions: one constructor per row of spec/opcode_table.json (30_encoding.md R88).
The operands stand in the order of the assembler's forms (30_encoding.md R93): destinations, sources, immediate. -/

namespace Sys2Proof

/-- The index of a multi-precision register M0 .. M15 (30_encoding.md R83). -/
abbrev Reg := Fin 16

/-- A command (30_encoding.md R81): the instruction word written to CMD and the operand latched from IMM. -/
structure Command where
  word : Word
  imm  : Word
deriving DecidableEq, Repr

/-- The nineteen instructions. An instruction that uses imm (30_encoding.md R84) carries it; one that ignores it does
not (log 15). -/
inductive Instr where
  /-- INIT Md: construct, release or clear (41_digit_store.md R111). -/
  | init (rd : Reg)
  /-- ENLARGE Md, #cap (41_digit_store.md R112). -/
  | enlarge (rd : Reg) (imm : Word)
  /-- COMPACT Md (41_digit_store.md R113). -/
  | compact (rd : Reg)
  /-- SET Md, Ms (41_digit_store.md R114). -/
  | set (rd rs1 : Reg)
  /-- SETW Md, #word (43_word_arith.md R151). -/
  | setw (rd : Reg) (imm : Word)
  /-- DEC Md, #imm with the character in imm[7:0] and the base in imm[31:8] (42_conversions.md R131). -/
  | dec (rd : Reg) (imm : Word)
  /-- CMP Ms, Mt (44_mp_arith.md R173). -/
  | cmp (rs1 rs2 : Reg)
  /-- CMPW Ms, #word (42_conversions.md R132). -/
  | cmpw (rs1 : Reg) (imm : Word)
  /-- ADDW Md, Ms, #word (43_word_arith.md R152). -/
  | addw (rd rs1 : Reg) (imm : Word)
  /-- MULW Md, Ms, #word (43_word_arith.md R153). -/
  | mulw (rd rs1 : Reg) (imm : Word)
  /-- MUL Md, Ms, Mt (44_mp_arith.md R171). -/
  | mul (rd rs1 rs2 : Reg)
  /-- SUB Md, Ms, Mt (44_mp_arith.md R172). -/
  | sub (rd rs1 rs2 : Reg)
  /-- TESTBIT Ms, #index (45_bit_ops.md R191). -/
  | testbit (rs1 : Reg) (imm : Word)
  /-- SETBIT Md, #index (45_bit_ops.md R192). -/
  | setbit (rd : Reg) (imm : Word)
  /-- SHL Md, Ms, #count (45_bit_ops.md R193). -/
  | shl (rd rs1 : Reg) (imm : Word)
  /-- DIVMOD Mq, Mr, Ma, Mb: quotient rd, remainder rd2, dividend rs1, divisor rs2 (46_division.md R211). -/
  | divmod (rd rd2 rs1 rs2 : Reg)
  /-- GCD Md, Ms, Mt (46_division.md R213). -/
  | gcd (rd rs1 rs2 : Reg)
  /-- RDCAP Ms (42_conversions.md R133). -/
  | rdcap (rs1 : Reg)
  /-- RDDIG Ms, #index (42_conversions.md R134). -/
  | rddig (rs1 : Reg) (imm : Word)
deriving DecidableEq, Repr

end Sys2Proof
end

