-- ==== Sys2Proof/WellFormed.lean ====
section
/-! DEFINITION. Which instructions have an encoding. The register type admits exactly the sixteen indices of
30_encoding.md R83, so the one check left is R89. -/

namespace Sys2Proof

/-- DIVMOD with rd = rd2 is ILLEGAL (30_encoding.md R89); every other aliasing of registers is legal
(10_state.md R40). -/
def Instr.wf : Instr → Bool
  | .divmod rd rd2 _ _ => rd != rd2
  | .init _ => true
  | .enlarge _ _ => true
  | .compact _ => true
  | .set _ _ => true
  | .setw _ _ => true
  | .dec _ _ => true
  | .cmp _ _ => true
  | .cmpw _ _ => true
  | .addw _ _ _ => true
  | .mulw _ _ _ => true
  | .mul _ _ _ => true
  | .sub _ _ _ => true
  | .testbit _ _ => true
  | .setbit _ _ => true
  | .shl _ _ _ => true
  | .gcd _ _ _ => true
  | .rdcap _ => true
  | .rddig _ _ => true

end Sys2Proof
end

