-- ==== Sys2Proof/Decode.lean ====
section
/-! DEFINITION. The command encoding of 30_encoding.md: the fields of the instruction word (R82), the opcode map (R88)
as a table and as a decoder that is total on any command (R92) and rejects by name (R86, R87, R89, R90), and the
encoder written from the same map. -/

namespace Sys2Proof

/-! ## Fields (R82) -/

/-- `w[lo+n-1 : lo]`, as an unsigned number (00_scope.md R9). -/
def bitField (w : Word) (lo n : Nat) : Nat := w.toNat / 2 ^ lo % 2 ^ n

/-- bits 31:24 -/
def opcodeField (w : Word) : Nat := bitField w 24 8

/-- A 4-bit register field whose lowest bit is bit lo (R83). -/
def regField (w : Word) (lo : Nat) : Reg := ⟨w.toNat / 2 ^ lo % 16, Nat.mod_lt _ (by decide)⟩

/-- bits 23:20 -/
def rdField (w : Word) : Reg := regField w 20

/-- bits 19:16 -/
def rs1Field (w : Word) : Reg := regField w 16

/-- bits 15:12 -/
def rs2Field (w : Word) : Reg := regField w 12

/-- bits 11:8 -/
def rd2Field (w : Word) : Reg := regField w 8

/-- bits 7:0, reserved (R87) -/
def reservedField (w : Word) : Nat := bitField w 0 8

/-! ## The decoder (R92) -/

/-- Why a command is ILLEGAL. All reasons raise the one fault code ILLEGAL (60_exceptions.md R233, R240); the names are
the model's own (log 16). -/
inductive IllegalReason where
  /-- A reserved opcode (R90). -/
  | reservedOpcode
  /-- Nonzero bits 7:0 (R87). -/
  | reservedBits
  /-- A nonzero register field the instruction does not use (R86). -/
  | unusedField
  /-- DIVMOD with rd = rd2 (R89). -/
  | sameDestinations
deriving DecidableEq, Repr

/-- The instruction i, if every register field it does not use holds 0 (R86). -/
def whenZero (unused : List Reg) (i : Instr) : Except IllegalReason Instr :=
  if unused.all (fun r => r == 0) then .ok i else .error .unusedField

/-- The instruction with these fields, or ILLEGAL with the reason (R86 to R90). -/
def decodeFields (op reserved : Nat) (rd rs1 rs2 rd2 : Reg) (imm : Word) : Except IllegalReason Instr :=
  if reserved ≠ 0 then .error .reservedBits
  else match op with
    | 0x01 => whenZero [rs1, rs2, rd2] (.init rd)
    | 0x02 => whenZero [rs1, rs2, rd2] (.enlarge rd imm)
    | 0x03 => whenZero [rs1, rs2, rd2] (.compact rd)
    | 0x04 => whenZero [rs2, rd2] (.set rd rs1)
    | 0x05 => whenZero [rs1, rs2, rd2] (.setw rd imm)
    | 0x06 => whenZero [rs1, rs2, rd2] (.dec rd imm)
    | 0x08 => whenZero [rd, rd2] (.cmp rs1 rs2)
    | 0x09 => whenZero [rd, rs2, rd2] (.cmpw rs1 imm)
    | 0x10 => whenZero [rs2, rd2] (.addw rd rs1 imm)
    | 0x11 => whenZero [rs2, rd2] (.mulw rd rs1 imm)
    | 0x18 => whenZero [rd2] (.mul rd rs1 rs2)
    | 0x19 => whenZero [rd2] (.sub rd rs1 rs2)
    | 0x20 => whenZero [rd, rs2, rd2] (.testbit rs1 imm)
    | 0x21 => whenZero [rs1, rs2, rd2] (.setbit rd imm)
    | 0x22 => whenZero [rs2, rd2] (.shl rd rs1 imm)
    | 0x28 => if rd == rd2 then .error .sameDestinations else .ok (.divmod rd rd2 rs1 rs2)
    | 0x29 => whenZero [rd2] (.gcd rd rs1 rs2)
    | 0x30 => whenZero [rd, rs2, rd2] (.rdcap rs1)
    | 0x31 => whenZero [rd, rs2, rd2] (.rddig rs1 imm)
    | _ => .error .reservedOpcode

/-- The decode function of R92, total on any command: one instruction with its fields, or ILLEGAL with the reason. -/
def decode (c : Command) : Except IllegalReason Instr :=
  decodeFields (opcodeField c.word) (reservedField c.word) (rdField c.word) (rs1Field c.word) (rs2Field c.word)
    (rd2Field c.word) c.imm

/-! ## The encoder -/

/-- The word with these fields and bits 7:0 zero (R82). -/
def commandWord (op : Nat) (rd rs1 rs2 rd2 : Reg) : Word :=
  BitVec.ofNat 32
    (op * 2 ^ 24 + rd.val * 2 ^ 20 + rs1.val * 2 ^ 16 + rs2.val * 2 ^ 12 + rd2.val * 2 ^ 8)

/-- The command of an instruction: an unused register field is 0 (R86), and so is the operand of an instruction that
ignores imm (which the host need not write, R81). -/
def encode : Instr → Command
  | .init rd => ⟨commandWord 0x01 rd 0 0 0, 0⟩
  | .enlarge rd imm => ⟨commandWord 0x02 rd 0 0 0, imm⟩
  | .compact rd => ⟨commandWord 0x03 rd 0 0 0, 0⟩
  | .set rd rs1 => ⟨commandWord 0x04 rd rs1 0 0, 0⟩
  | .setw rd imm => ⟨commandWord 0x05 rd 0 0 0, imm⟩
  | .dec rd imm => ⟨commandWord 0x06 rd 0 0 0, imm⟩
  | .cmp rs1 rs2 => ⟨commandWord 0x08 0 rs1 rs2 0, 0⟩
  | .cmpw rs1 imm => ⟨commandWord 0x09 0 rs1 0 0, imm⟩
  | .addw rd rs1 imm => ⟨commandWord 0x10 rd rs1 0 0, imm⟩
  | .mulw rd rs1 imm => ⟨commandWord 0x11 rd rs1 0 0, imm⟩
  | .mul rd rs1 rs2 => ⟨commandWord 0x18 rd rs1 rs2 0, 0⟩
  | .sub rd rs1 rs2 => ⟨commandWord 0x19 rd rs1 rs2 0, 0⟩
  | .testbit rs1 imm => ⟨commandWord 0x20 0 rs1 0 0, imm⟩
  | .setbit rd imm => ⟨commandWord 0x21 rd 0 0 0, imm⟩
  | .shl rd rs1 imm => ⟨commandWord 0x22 rd rs1 0 0, imm⟩
  | .divmod rd rd2 rs1 rs2 => ⟨commandWord 0x28 rd rs1 rs2 rd2, 0⟩
  | .gcd rd rs1 rs2 => ⟨commandWord 0x29 rd rs1 rs2 0, 0⟩
  | .rdcap rs1 => ⟨commandWord 0x30 0 rs1 0 0, 0⟩
  | .rddig rs1 imm => ⟨commandWord 0x31 0 rs1 0 0, imm⟩

/-- The role table of R84: the operand of an instruction that uses imm, none where imm is unused. -/
def Instr.immOperand : Instr → Option Word
  | .enlarge _ imm => some imm
  | .setw _ imm => some imm
  | .dec _ imm => some imm
  | .cmpw _ imm => some imm
  | .addw _ _ imm => some imm
  | .mulw _ _ imm => some imm
  | .testbit _ imm => some imm
  | .setbit _ imm => some imm
  | .shl _ _ imm => some imm
  | .rddig _ imm => some imm
  | .init _ => none
  | .compact _ => none
  | .set _ _ => none
  | .cmp _ _ => none
  | .mul _ _ _ => none
  | .sub _ _ _ => none
  | .divmod _ _ _ _ => none
  | .gcd _ _ _ => none
  | .rdcap _ => none

/-! ## The opcode map (R88) as a table, beside the decoder -/

/-- One row of R88: a word is the instruction when `(w & mask) == fixed` (the column "match" of the table). -/
structure OpcodeRow where
  opcode   : Nat
  mnemonic : String
  mask     : Word
  fixed    : Word
deriving DecidableEq, Repr

/-- A word matches a row (R88). -/
def OpcodeRow.matchesWord (r : OpcodeRow) (w : Word) : Bool := w &&& r.mask == r.fixed

/-- The rows of R88 with opcodes 0x01 to 0x09: digit store and conversions. -/
def storeRows : List OpcodeRow := [
  ⟨0x01, "INIT", 0xFF0FFFFF#32, 0x01000000#32⟩,
  ⟨0x02, "ENLARGE", 0xFF0FFFFF#32, 0x02000000#32⟩,
  ⟨0x03, "COMPACT", 0xFF0FFFFF#32, 0x03000000#32⟩,
  ⟨0x04, "SET", 0xFF00FFFF#32, 0x04000000#32⟩,
  ⟨0x05, "SETW", 0xFF0FFFFF#32, 0x05000000#32⟩,
  ⟨0x06, "DEC", 0xFF0FFFFF#32, 0x06000000#32⟩,
  ⟨0x08, "CMP", 0xFFF00FFF#32, 0x08000000#32⟩,
  ⟨0x09, "CMPW", 0xFFF0FFFF#32, 0x09000000#32⟩]

/-- The rows of R88 with opcodes 0x10 to 0x19: arithmetic. -/
def arithRows : List OpcodeRow := [
  ⟨0x10, "ADDW", 0xFF00FFFF#32, 0x10000000#32⟩,
  ⟨0x11, "MULW", 0xFF00FFFF#32, 0x11000000#32⟩,
  ⟨0x18, "MUL", 0xFF000FFF#32, 0x18000000#32⟩,
  ⟨0x19, "SUB", 0xFF000FFF#32, 0x19000000#32⟩]

/-- The rows of R88 with opcodes 0x20 to 0x31: bit operations, division and read-back. -/
def bitDivReadRows : List OpcodeRow := [
  ⟨0x20, "TESTBIT", 0xFFF0FFFF#32, 0x20000000#32⟩,
  ⟨0x21, "SETBIT", 0xFF0FFFFF#32, 0x21000000#32⟩,
  ⟨0x22, "SHL", 0xFF00FFFF#32, 0x22000000#32⟩,
  ⟨0x28, "DIVMOD", 0xFF0000FF#32, 0x28000000#32⟩,
  ⟨0x29, "GCD", 0xFF000FFF#32, 0x29000000#32⟩,
  ⟨0x30, "RDCAP", 0xFFF0FFFF#32, 0x30000000#32⟩,
  ⟨0x31, "RDDIG", 0xFFF0FFFF#32, 0x31000000#32⟩]

/-- The opcode map of R88. -/
def opcodeRows : List OpcodeRow := storeRows ++ arithRows ++ bitDivReadRows

/-- The mnemonic of an instruction (R88). -/
def Instr.mnemonic : Instr → String
  | .init _ => "INIT"
  | .enlarge _ _ => "ENLARGE"
  | .compact _ => "COMPACT"
  | .set _ _ => "SET"
  | .setw _ _ => "SETW"
  | .dec _ _ => "DEC"
  | .cmp _ _ => "CMP"
  | .cmpw _ _ => "CMPW"
  | .addw _ _ _ => "ADDW"
  | .mulw _ _ _ => "MULW"
  | .mul _ _ _ => "MUL"
  | .sub _ _ _ => "SUB"
  | .testbit _ _ => "TESTBIT"
  | .setbit _ _ => "SETBIT"
  | .shl _ _ _ => "SHL"
  | .divmod _ _ _ _ => "DIVMOD"
  | .gcd _ _ _ => "GCD"
  | .rdcap _ => "RDCAP"
  | .rddig _ _ => "RDDIG"

/-! ## The table's numbering of an instruction's bits -/

/-- The command whose bits are w, numbered as spec/opcode_table.json numbers them: the instruction word is bits 31:0
and the operand imm counts on from it, bits 63:32. Bits at or above nbits are 0. -/
def tableCommand (nbits w : Nat) : Command :=
  let v := w % 2 ^ nbits
  ⟨BitVec.ofNat 32 v, BitVec.ofNat 32 (v / 2 ^ 32)⟩

/-- What the decoder reads from the instruction whose bits are w; none where it refuses. -/
def decodeTableWord (nbits w : Nat) : Option Instr :=
  match decode (tableCommand nbits w) with
  | .ok i => some i
  | .error _ => none

end Sys2Proof
end

