-- ==== Sys2Proof/Machine/State.lean ====
section
/-! DEFINITION. The state of the MPI core (10_state.md), the events from outside it, the reasons a step can stop, and
the state after reset (10_state.md R44). -/

namespace Sys2Proof.Machine

/-- One multi-precision register (10_state.md R21): its digits, least significant first, each in a 32-bit storage word
(R22). Its capacity is the number of digits (R23), so it is not stored a second time (log 6). -/
structure Mpr where
  digits : List Word
deriving DecidableEq, Repr

/-- A register of capacity 0, whose value is zero (10_state.md R24, R26, R44). -/
def Mpr.empty : Mpr := ⟨[]⟩

/-- What may happen next at the core's interface. The widths are in bits, the addresses are the host's. -/
inductive Event where
  /-- A read by the HOST (20_memory.md R65). -/
  | hostRead (width addr : Nat)
  /-- A write by the HOST (20_memory.md R65). -/
  | hostWrite (width addr : Nat) (data : Word)
  /-- The platform's hardware reset (70_reset_and_hazards.md R271). -/
  | platformReset
  /-- The CORE's turn to step (00_scope.md R4, 70_reset_and_hazards.md R281). -/
  | coreTurn
deriving DecidableEq, Repr

/-- The whole state. STATUS is assembled from its fields; STATUS.BUSY is "a command is pending" (R39, R41; log 6). -/
structure State where
  /-- M0 .. M15 (R21) -/
  regs : Vector Mpr 16
  /-- IMM (R29) -/
  imm : Word
  /-- RESULT (R30) -/
  result : Word
  /-- STATUS.FAULT (R31) -/
  fault : Bool
  /-- STATUS.FATAL (R31) -/
  fatal : Bool
  /-- STATUS.DROP (R31) -/
  drop : Bool
  /-- STATUS.FCODE (R31) -/
  fcode : Byte
  /-- FCMD (R33) -/
  fcmd : Word
  /-- FIMM (R34) -/
  fimm : Word
  /-- The pending command (R41) -/
  pending : Option Command
  /-- The OPEN parameters, of which PARAMS shows MAX_DIGITS (R8, R35, R61) -/
  config : Config
  /-- The MODEL's own field: the events and CORE turns still to come, oldest first (log 3) -/
  schedule : List Event
  /-- The MODEL's own field: what the HOST's reads have returned, newest first (log 4) -/
  reads : List Word
deriving DecidableEq, Repr

/-- Why a step can stop with a fault. No command does: a command's fault is a next state (60_exceptions.md R241). -/
inductive Fault where
  /-- Raised by a HOST access whose address lies outside the 32-byte register window, the only host-addressable space
  of the core (20_memory.md R61). Safe: the model stops. -/
  | outsideWindow (addr : Nat)
deriving DecidableEq, Repr

/-- Why a step can be refused. -/
inductive Refusal where
  /-- Raised by exec's arm of an instruction that has no meaning yet; no arm raises it. Safe. -/
  | notModelled (mnemonic : String)
  /-- Raised by a HOST access inside the window that is not a 32-bit access at an offset that is a multiple of 4:
  "a model must refuse it" (20_memory.md R64, 93_implementation_defined.md P4). Safe. -/
  | undefinedAccess (width offset : Nat)
deriving DecidableEq, Repr

/-- The reset values of 10_state.md R44, for a machine with these parameters and these of the model's own fields. -/
def State.resetWith (config : Config) (schedule : List Event) (reads : List Word) : State where
  regs := Vector.replicate 16 Mpr.empty
  imm := 0
  result := 0
  fault := false
  fatal := false
  drop := false
  fcode := 0
  fcmd := 0
  fimm := 0
  pending := none
  config := config
  schedule := schedule
  reads := reads

/-- The machine right after reset (10_state.md R44, 70_reset_and_hazards.md R272, R273). Its parameters are those of
Config.standard and nothing is scheduled (DESIGN CHOICE, log 1, log 2, log 3, log 5). -/
def State.reset : State := State.resetWith Config.standard [] []

end Sys2Proof.Machine
end

