-- ==== Sys2Proof/Machine/Operands.lean ====
section
/-! DEFINITION. What a command reads: the value, the capacity and the digits of a register (10_state.md R23, R24), the
minimal length of a value and its digits (R25), and which registers an instruction writes (30_encoding.md R88). -/

namespace Sys2Proof.Machine

/-- The value of a digit sequence, least significant digit first: the sum of d[j] * 2^(31*j) (10_state.md R24), in
Horner's form. -/
def digitsValue : List Nat → Nat
  | [] => 0
  | d :: ds => d + radix * digitsValue ds

/-- `digits(v, n)` of 10_state.md R25: the n low digits of v. -/
def digitsOf (v : Nat) : Nat → List Nat
  | 0 => []
  | n + 1 => v % radix :: digitsOf (v / radix) n

/-- `len(v)` of 10_state.md R25: 0 for 0, and ceil(b / 31) for a value of b bits, where b = log2 v + 1. -/
def len (v : Nat) : Nat := if v = 0 then 0 else Nat.log2 v / 31 + 1

/-- The capacity of a register (10_state.md R21, R23). -/
def Mpr.cap (m : Mpr) : Nat := m.digits.length

/-- The digits as numbers. -/
def Mpr.nats (m : Mpr) : List Nat := m.digits.map BitVec.toNat

/-- The value of a register (10_state.md R24). -/
def Mpr.val (m : Mpr) : Nat := digitsValue m.nats

/-- Digit j, 0 at or beyond the capacity (10_state.md R23, R24). -/
def Mpr.digit (m : Mpr) (j : Nat) : Nat := m.nats.getD j 0

/-- The register that holds digits(v, n). -/
def Mpr.ofValue (v n : Nat) : Mpr := ⟨(digitsOf v n).map (BitVec.ofNat 32)⟩

/-- The canonical form of 10_state.md R26: the capacity is the minimal length of the value. -/
def Mpr.canonical (m : Mpr) : Bool := m.cap == len m.val

/-- Register i (10_state.md R21). -/
def State.reg (s : State) (i : Reg) : Mpr := s.regs[i.val]

/-- `M[i].cap` -/
def State.cap (s : State) (i : Reg) : Nat := (s.reg i).cap

/-- `val(M[i])` -/
def State.val (s : State) (i : Reg) : Nat := (s.reg i).val

/-- MAX_DIGITS (00_scope.md R8). -/
def State.maxDigits (s : State) : Nat := s.config.maxDigits


/-- The destination registers of an instruction (30_encoding.md R82, R88); DEC, ENLARGE, COMPACT and SETBIT read
their destination too. -/
def dests : Instr → List Reg
  | .init rd => [rd]
  | .enlarge rd _ => [rd]
  | .compact rd => [rd]
  | .set rd _ => [rd]
  | .setw rd _ => [rd]
  | .dec rd _ => [rd]
  | .cmp _ _ => []
  | .cmpw _ _ => []
  | .addw rd _ _ => [rd]
  | .mulw rd _ _ => [rd]
  | .mul rd _ _ => [rd]
  | .sub rd _ _ => [rd]
  | .testbit _ _ => []
  | .setbit rd _ => [rd]
  | .shl rd _ _ => [rd]
  | .divmod rd rd2 _ _ => [rd, rd2]
  | .gcd rd _ _ => [rd]
  | .rdcap _ => []
  | .rddig _ _ => []

/-- The instructions that write RESULT (10_state.md R30). -/
def writesResult : Instr → Bool
  | .init _ => false
  | .enlarge _ _ => false
  | .compact _ => false
  | .set _ _ => false
  | .setw _ _ => false
  | .dec _ _ => false
  | .cmp _ _ => true
  | .cmpw _ _ => true
  | .addw _ _ _ => false
  | .mulw _ _ _ => false
  | .mul _ _ _ => false
  | .sub _ _ _ => false
  | .testbit _ _ => true
  | .setbit _ _ => false
  | .shl _ _ _ => false
  | .divmod _ _ _ _ => false
  | .gcd _ _ _ => false
  | .rdcap _ => true
  | .rddig _ _ => true

end Sys2Proof.Machine
end

