-- ==== Sys2Proof/Machine/Flags.lean ====
section
/-! DEFINITION. The status a command leaves: the encoding of a three-way result in RESULT (00_scope.md R12) and the
words the HOST reads as STATUS and PARAMS (10_state.md R31, R35). The core has no condition flags (10_state.md R38). -/

namespace Sys2Proof.Machine

/-- The three-way result -1, 0, +1 as RESULT holds it (00_scope.md R12). -/
def encodeOrdering : Ordering → Word
  | .lt => 0xFFFFFFFF#32
  | .eq => 0x00000000#32
  | .gt => 0x00000001#32

/-- `cmp3(a, b)` of 00_scope.md R12. -/
def cmp3 (a b : Nat) : Ordering := if a < b then .lt else if a = b then .eq else .gt

/-- STATUS.BUSY (10_state.md R31): 1 exactly while a command is pending (R39, R41). -/
def State.busy (s : State) : Bool := s.pending.isSome

/-- STATUS (10_state.md R31): bits 31:16 and 7:4 read 0, FCODE in bits 15:8, DROP, FATAL, FAULT, BUSY in bits 3 to 0. -/
def State.statusWord (s : State) : Word :=
  0#16 ++ s.fcode ++ 0#4 ++ BitVec.ofBool s.drop ++ BitVec.ofBool s.fatal ++ BitVec.ofBool s.fault
    ++ BitVec.ofBool s.busy

/-- PARAMS (10_state.md R35): MAX_DIGITS in bits 31:8, NREG = 16 in bits 7:0. -/
def State.paramsWord (s : State) : Word := BitVec.ofNat 24 s.maxDigits ++ 0x10#8

end Sys2Proof.Machine
end

