-- ==== Sys2Proof/Machine/Ops.lean ====
section
/-! DEFINITION. The shared operations: the two result writes (10_state.md R27, R28), the end of a command, taking a
fault (60_exceptions.md R241) and the returns from one (R244, R245), submitting and dropping a command (R243), and
reset (70_reset_and_hazards.md R272). -/

namespace Sys2Proof.Machine

/-- The fault codes 60_exceptions.md R232 assigns. -/
inductive FaultCode where
  | illegal
  | capacity
  | negative
  | divZero
  | gcdZero
  | badDigit
  | badBase
deriving DecidableEq, Repr

/-- The value of STATUS.FCODE (60_exceptions.md R232). -/
def FaultCode.code : FaultCode → Byte
  | .illegal => 0x01#8
  | .capacity => 0x02#8
  | .negative => 0x03#8
  | .divZero => 0x04#8
  | .gcdZero => 0x05#8
  | .badDigit => 0x06#8
  | .badBase => 0x07#8

/-- Register i becomes m; no other register changes (10_state.md R43). -/
def State.setReg (s : State) (i : Reg) (m : Mpr) : State := { s with regs := s.regs.set i.val m }

/-- `RESULT <- w` (00_scope.md R11). -/
def State.setResult (s : State) (w : Word) : State := { s with result := w }

/-- WRITE_KEEP (10_state.md R27). The check is on max(M[i].cap, k, len(v)); it is made in two parts, so that len(v)
is not needed when the requested capacity k already exceeds MAX_DIGITS (log 9). -/
def State.writeKeep (s : State) (i : Reg) (v k : Nat) : Except FaultCode State :=
  if s.maxDigits < max (s.cap i) k then .error .capacity
  else if s.maxDigits < len v then .error .capacity
  else .ok (s.setReg i (Mpr.ofValue v (max (max (s.cap i) k) (len v))))

/-- WRITE_COMPACT (10_state.md R28). -/
def State.writeCompact (s : State) (i : Reg) (v : Nat) : Except FaultCode State :=
  if s.maxDigits < len v then .error .capacity
  else .ok (s.setReg i (Mpr.ofValue v (len v)))

/-- DIVMOD's two result writes, in order (46_division.md R211): v into M[i], then w into M[j]. -/
def State.writeCompactPair (s : State) (i : Reg) (v : Nat) (j : Reg) (w : Nat) : Except FaultCode State :=
  match s.writeCompact i v with
  | .error code => .error code
  | .ok t => t.writeCompact j w

/-- The end of a command without a fault: BUSY is cleared (10_state.md R39, R41). -/
def State.complete (s : State) : State := { s with pending := none }

/-- TAKING A FAULT (60_exceptions.md R241): exactly the fields of STATUS, FCMD and FIMM named there change, and the
pending command is discarded. Without a pending command, a state no step brings here, FCMD and FIMM keep their values
(log 11). -/
def State.takeFault (s : State) (code : FaultCode) : State :=
  { s with
    fault := true
    fatal := code == .capacity
    fcode := code.code
    fcmd := (s.pending.map Command.word).getD s.fcmd
    fimm := (s.pending.map Command.imm).getD s.fimm
    pending := none }

/-- The end of a command (10_state.md R39): its results are committed, or its fault is recorded and nothing else. -/
def State.finish (s : State) : Except FaultCode State → Host.Outcome State Fault Refusal
  | .ok t => .next t.complete
  | .error code => .next (s.takeFault code)

/-- RETURN FROM A FAULT (60_exceptions.md R244, R245): CLR clears DROP, and FAULT and FCODE unless FATAL is 1. -/
def State.clearFault (s : State) : State :=
  if s.fatal then { s with drop := false } else { s with drop := false, fault := false, fcode := 0 }

/-- RESET (70_reset_and_hazards.md R272, R280): every piece of state takes its value of 10_state.md R44, and a pending
command is abandoned. The parameters stay, and so do the model's own fields, which are not the core's. -/
def State.resetCore (s : State) : State := State.resetWith s.config s.schedule s.reads

/-- A command becomes the pending one (10_state.md R41). -/
def State.latch (s : State) (c : Command) : State := { s with pending := some c }

/-- A HOST write of w to CMD (10_state.md R36, 60_exceptions.md R243): accepted, with the operand that IMM holds now
(30_encoding.md R81), if BUSY = 0 and FAULT = 0; dropped otherwise. -/
def State.submit (s : State) (w : Word) : State :=
  if s.busy || s.fault then { s with drop := true } else s.latch ⟨w, s.imm⟩

end Sys2Proof.Machine
end

