-- ==== Sys2Proof/Machine/Serial.lean ====
section
/-! DEFINITION. The digit-serial and bit-serial algorithms of the instruction rules, as their pseudocode writes them
(43_word_arith.md R152, R153; 44_mp_arith.md R171, R172, R173; 45_bit_ops.md R193; 46_division.md R211, R213). Digits
are numbers, least significant first; `% radix` is `& 0x7FFFFFFF` and `/ radix` is `>> 31` (00_scope.md R9). -/

namespace Sys2Proof.Machine

/-- The escaped carry of ADDW and MULW becomes new top digits, "while carry != 0" (43_word_arith.md R152, R153). -/
def escapedCarry (carry : Nat) : List Nat := digitsOf carry (len carry)

/-- ADDW's single carry chain (43_word_arith.md R152). -/
def addChain : List Nat → Nat → List Nat
  | [], carry => escapedCarry carry
  | d :: ds, carry => (d + carry) % radix :: addChain ds ((d + carry) / radix)

/-- MULW's schoolbook single-digit multiplication by w (43_word_arith.md R153). -/
def mulChain (w : Nat) : List Nat → Nat → List Nat
  | [], carry => escapedCarry carry
  | d :: ds, carry => (d * w + carry) % radix :: mulChain w ds ((d * w + carry) / radix)

/-- MUL's inner loop (44_mp_arith.md R171): add c into the accumulator at position k and ripple the carry upwards until
none remains. -/
def ripple : List Nat → Nat → Nat → List Nat
  | [], _, _ => []
  | a :: acc, 0, c => if c = 0 then a :: acc else (a + c) % radix :: ripple acc 0 ((a + c) / radix)
  | a :: acc, k + 1, c => a :: ripple acc k c

/-- One row of MUL: the products of digit i of the first factor with the n2 digits of the second, in order of j. -/
def mulRow (a b : Mpr) (i n2 : Nat) (acc : List Nat) : List Nat :=
  (List.range n2).foldl (fun acc j => ripple acc (i + j) (a.digit i * b.digit j)) acc

/-- MUL's schoolbook product in a scratch accumulator of n1 + n2 digits (44_mp_arith.md R171). -/
def mulNaive (a b : Mpr) : List Nat :=
  (List.range a.cap).foldl (fun acc i => mulRow a b i b.cap acc) (List.replicate (a.cap + b.cap) 0)

/-- The digits of two registers at positions 0 .. n-1, missing ones 0 (44_mp_arith.md R172, R173). -/
def digitPairs (a b : Mpr) (n : Nat) : List (Nat × Nat) := (List.range n).map fun j => (a.digit j, b.digit j)

/-- SUB's borrow chain (44_mp_arith.md R172): the difference digits, and the borrow that escapes the top one. -/
def borrowChain : List (Nat × Nat) → Nat → List Nat × Nat
  | [], borrow => ([], borrow)
  | (x, y) :: rest, borrow =>
    if y + borrow ≤ x then
      let r := borrowChain rest 0
      ((x - y - borrow) :: r.1, r.2)
    else
      let r := borrowChain rest 1
      ((x + radix - y - borrow) :: r.1, r.2)

/-- The comparison of CMP and CMPW (44_mp_arith.md R173, 42_conversions.md R132): from digit n-1 down to digit 0, the
first difference decides. -/
def compareDown (x y : Nat → Nat) : Nat → Ordering
  | 0 => .eq
  | j + 1 => if y j < x j then .gt else if x j < y j then .lt else compareDown x y j

/-- The word of CMPW as two digits (42_conversions.md R132). -/
def wordDigit (w : Nat) : Nat → Nat
  | 0 => w % radix
  | 1 => w / radix
  | _ + 2 => 0

/-- Digit i of SHL's result, from two adjacent digits of the operand (45_bit_ops.md R193). -/
def shlDigit (m : Mpr) (ws bs i : Nat) : Nat :=
  let lo := if i < ws then 0 else m.digit (i - ws)
  let hi := if i < ws + 1 then 0 else m.digit (i - ws - 1)
  (lo <<< bs) % radix ||| hi >>> (31 - bs)

/-- SHL's two-digit assembly (45_bit_ops.md R193). -/
def shlDigits (m : Mpr) (count : Nat) : List Nat :=
  (List.range (m.cap + count / 31 + 1)).map (shlDigit m (count / 31) (count % 31))

/-- `len(v * 2^count)` without the product: the length SHL's result has (45_bit_ops.md R193; log 9). -/
def shiftedLen (v count : Nat) : Nat := if v = 0 then 0 else (Nat.log2 v + count) / 31 + 1

/-- DIVMOD's loop (46_division.md R211) over the bit positions n-1 down to 0 of the dividend a, with divisor b: the
quotient and the remainder so far are q and r. -/
def longDivision (a b : Nat) : Nat → Nat → Nat → Nat × Nat
  | 0, q, r => (q, r)
  | i + 1, q, r =>
    let r' := r <<< 1 ||| (a >>> i) % 2
    if b ≤ r' then longDivision a b i (q ||| 1 <<< i) (r' - b) else longDivision a b i q r'

/-- GCD's loop (46_division.md R213): replace (x, y) by (y, x mod y) until y is 0. The first argument bounds the
iterations; y + 1 of them are always enough (log 10). -/
def euclid : Nat → Nat → Nat → Nat
  | 0, x, _ => x
  | fuel + 1, x, y => if y = 0 then x else euclid fuel y (x % y)

end Sys2Proof.Machine
end

