-- ==== Sys2Proof/Machine/BitOps.lean ====
section
/-! DEFINITION. The bit operation commands TESTBIT, SETBIT, SHL (45_bit_ops.md). -/

namespace Sys2Proof.Machine

/-- TESTBIT (45_bit_ops.md R191): bit imm % 31 of digit imm / 31. -/
def execTestbit (rs1 : Reg) (imm : Word) (s : State) : Host.Outcome State Fault Refusal :=
  s.finish (.ok (s.setResult
    (BitVec.ofNat 32 (((s.reg rs1).digit (imm.toNat / 31) >>> (imm.toNat % 31)) % 2))))

/-- SETBIT (45_bit_ops.md R192): the register grows to imm / 31 + 1 digits if it is shorter. -/
def execSetbit (rd : Reg) (imm : Word) (s : State) : Host.Outcome State Fault Refusal :=
  s.finish (s.writeKeep rd (s.val rd ||| 1 <<< imm.toNat) (imm.toNat / 31 + 1))

/-- SHL (45_bit_ops.md R193). The result write's check is made on the length before the digits are assembled, and a
zero value gives zero whatever the count (log 9). -/
def execShl (rd rs1 : Reg) (imm : Word) (s : State) : Host.Outcome State Fault Refusal :=
  s.finish
    (if s.val rs1 = 0 then s.writeCompact rd 0
     else if s.maxDigits < shiftedLen (s.val rs1) imm.toNat then .error .capacity
     else s.writeCompact rd (digitsValue (shlDigits (s.reg rs1) imm.toNat)))

end Sys2Proof.Machine
end

