-- ==== Sys2Proof/Machine/Conversions.lean ====
section
/-! DEFINITION. The conversion and read-back commands DEC, CMPW, RDCAP, RDDIG (42_conversions.md). -/

namespace Sys2Proof.Machine

/-- The character code of a DEC operand, imm[7:0] (30_encoding.md R85). -/
def decChar (imm : Word) : Nat := bitField imm 0 8

/-- The base of a DEC operand, imm[31:8] (30_encoding.md R85). -/
def decBase (imm : Word) : Nat := bitField imm 8 24

/-- DEC (42_conversions.md R131): the base is checked first, then the character ('0' is 0x30, '9' is 0x39; log 12). -/
def execDec (rd : Reg) (imm : Word) (s : State) : Host.Outcome State Fault Refusal :=
  s.finish
    (if decBase imm ≠ 10 then .error .badBase
     else if decChar imm < 0x30 ∨ 0x39 < decChar imm then .error .badDigit
     else s.writeKeep rd (s.val rd * 10 + (decChar imm - 0x30)) 0)

/-- CMPW (42_conversions.md R132): the comparison over max(cap, 2) digit positions. -/
def execCmpw (rs1 : Reg) (imm : Word) (s : State) : Host.Outcome State Fault Refusal :=
  s.finish (.ok (s.setResult (encodeOrdering
    (compareDown (s.reg rs1).digit (wordDigit imm.toNat) (max (s.cap rs1) 2)))))

/-- RDCAP (42_conversions.md R133). -/
def execRdcap (rs1 : Reg) (s : State) : Host.Outcome State Fault Refusal :=
  s.finish (.ok (s.setResult (BitVec.ofNat 32 (s.cap rs1))))

/-- RDDIG (42_conversions.md R134): digit imm, 0 at or beyond the capacity. -/
def execRddig (rs1 : Reg) (imm : Word) (s : State) : Host.Outcome State Fault Refusal :=
  s.finish (.ok (s.setResult
    (if imm.toNat < s.cap rs1 then BitVec.ofNat 32 ((s.reg rs1).digit imm.toNat) else 0)))

end Sys2Proof.Machine
end

