-- ==== Sys2Proof/Machine/DigitStore.lean ====
section
/-! DEFINITION. The digit store commands INIT, ENLARGE, COMPACT, SET (41_digit_store.md). -/

namespace Sys2Proof.Machine

/-- INIT (41_digit_store.md R111): rd becomes empty. -/
def execInit (rd : Reg) (s : State) : Host.Outcome State Fault Refusal :=
  s.finish (.ok (s.setReg rd Mpr.empty))

/-- ENLARGE (41_digit_store.md R112): the capacity grows to imm, the value stays. -/
def execEnlarge (rd : Reg) (imm : Word) (s : State) : Host.Outcome State Fault Refusal :=
  s.finish (s.writeKeep rd (s.val rd) imm.toNat)

/-- COMPACT (41_digit_store.md R113): the capacity becomes the minimal length; no capacity check is made. -/
def execCompact (rd : Reg) (s : State) : Host.Outcome State Fault Refusal :=
  s.finish (.ok (s.setReg rd (Mpr.ofValue (s.val rd) (len (s.val rd)))))

/-- SET (41_digit_store.md R114): a deep copy that keeps the larger capacity. -/
def execSet (rd rs1 : Reg) (s : State) : Host.Outcome State Fault Refusal :=
  s.finish (s.writeKeep rd (s.val rs1) (s.cap rs1))

end Sys2Proof.Machine
end

