-- ==== Sys2Proof/Machine/Division.lean ====
section
/-! DEFINITION. The division and GCD commands DIVMOD, GCD (46_division.md). -/

namespace Sys2Proof.Machine

/-- DIVMOD (46_division.md R211): the divisor is checked before anything is written; the loop runs over all 31 * cap
bit positions of the dividend register; both results are computed before either is written (10_state.md R40). -/
def execDivmod (rd rd2 rs1 rs2 : Reg) (s : State) : Host.Outcome State Fault Refusal :=
  s.finish
    (if s.val rs2 = 0 then .error .divZero
     else
       let qr := longDivision (s.val rs1) (s.val rs2) (31 * s.cap rs1) 0 0
       s.writeCompactPair rd qr.1 rd2 qr.2)

/-- GCD (46_division.md R213): both operands are checked, then Euclid's loop. -/
def execGcd (rd rs1 rs2 : Reg) (s : State) : Host.Outcome State Fault Refusal :=
  s.finish
    (if s.val rs1 = 0 ∨ s.val rs2 = 0 then .error .gcdZero
     else s.writeCompact rd (euclid (s.val rs2 + 1) (s.val rs1) (s.val rs2)))

end Sys2Proof.Machine
end

