-- ==== Sys2Proof/Machine/MpArith.lean ====
section
/-! DEFINITION. The multi-precision arithmetic commands MUL, SUB, CMP (44_mp_arith.md). -/

namespace Sys2Proof.Machine

/-- MUL (44_mp_arith.md R171). -/
def execMul (rd rs1 rs2 : Reg) (s : State) : Host.Outcome State Fault Refusal :=
  s.finish (s.writeCompact rd (digitsValue (mulNaive (s.reg rs1) (s.reg rs2))))

/-- SUB (44_mp_arith.md R172): NEGATIVE when the borrow escapes, before rd is written. -/
def execSub (rd rs1 rs2 : Reg) (s : State) : Host.Outcome State Fault Refusal :=
  let r := borrowChain (digitPairs (s.reg rs1) (s.reg rs2) (max (s.cap rs1) (s.cap rs2))) 0
  s.finish (if r.2 = 1 then .error .negative else s.writeCompact rd (digitsValue r.1))

/-- CMP (44_mp_arith.md R173). -/
def execCmp (rs1 rs2 : Reg) (s : State) : Host.Outcome State Fault Refusal :=
  s.finish (.ok (s.setResult (encodeOrdering
    (compareDown (s.reg rs1).digit (s.reg rs2).digit (max (s.cap rs1) (s.cap rs2))))))

end Sys2Proof.Machine
end

