-- ==== Sys2Proof/Machine/WordArith.lean ====
section
/-! DEFINITION. The word arithmetic commands SETW, ADDW, MULW (43_word_arith.md). -/

namespace Sys2Proof.Machine

/-- SETW (43_word_arith.md R151): the word, in at least two digits. -/
def execSetw (rd : Reg) (imm : Word) (s : State) : Host.Outcome State Fault Refusal :=
  s.finish (s.writeKeep rd imm.toNat 2)

/-- ADDW (43_word_arith.md R152): the carry chain over the digits of rs1, starting with the word as carry. -/
def execAddw (rd rs1 : Reg) (imm : Word) (s : State) : Host.Outcome State Fault Refusal :=
  s.finish (s.writeKeep rd (digitsValue (addChain (s.reg rs1).nats imm.toNat)) (s.cap rs1))

/-- MULW (43_word_arith.md R153): the schoolbook multiplication of the digits of rs1 by the word. -/
def execMulw (rd rs1 : Reg) (imm : Word) (s : State) : Host.Outcome State Fault Refusal :=
  s.finish (s.writeKeep rd (digitsValue (mulChain imm.toNat (s.reg rs1).nats 0)) (s.cap rs1))

end Sys2Proof.Machine
end

