-- ==== Sys2Proof/Machine/Dispatch.lean ====
section
/-! DEFINITION. The dispatch: one arm per instruction, each a direct call of its meaning. -/

namespace Sys2Proof.Machine

/-- What the CORE does with one decoded command (10_state.md R39). -/
def exec (i : Instr) (s : State) : Host.Outcome State Fault Refusal :=
  match i with
  | .init rd => Sys2Proof.Machine.execInit rd s
  | .enlarge rd imm => Sys2Proof.Machine.execEnlarge rd imm s
  | .compact rd => Sys2Proof.Machine.execCompact rd s
  | .set rd rs1 => Sys2Proof.Machine.execSet rd rs1 s
  | .setw rd imm => Sys2Proof.Machine.execSetw rd imm s
  | .dec rd imm => Sys2Proof.Machine.execDec rd imm s
  | .cmp rs1 rs2 => Sys2Proof.Machine.execCmp rs1 rs2 s
  | .cmpw rs1 imm => Sys2Proof.Machine.execCmpw rs1 imm s
  | .addw rd rs1 imm => Sys2Proof.Machine.execAddw rd rs1 imm s
  | .mulw rd rs1 imm => Sys2Proof.Machine.execMulw rd rs1 imm s
  | .mul rd rs1 rs2 => Sys2Proof.Machine.execMul rd rs1 rs2 s
  | .sub rd rs1 rs2 => Sys2Proof.Machine.execSub rd rs1 rs2 s
  | .testbit rs1 imm => Sys2Proof.Machine.execTestbit rs1 imm s
  | .setbit rd imm => Sys2Proof.Machine.execSetbit rd imm s
  | .shl rd rs1 imm => Sys2Proof.Machine.execShl rd rs1 imm s
  | .divmod rd rd2 rs1 rs2 => Sys2Proof.Machine.execDivmod rd rd2 rs1 rs2 s
  | .gcd rd rs1 rs2 => Sys2Proof.Machine.execGcd rd rs1 rs2 s
  | .rdcap rs1 => Sys2Proof.Machine.execRdcap rs1 s
  | .rddig rs1 imm => Sys2Proof.Machine.execRddig rs1 imm s

end Sys2Proof.Machine
end

