-- ==== Sys2Proof/Machine/Window.lean ====
section
/-! DEFINITION. The register window and what a HOST access does to it (20_memory.md R61 to R65; 10_state.md R29 to
R36). -/

namespace Sys2Proof.Machine

/-- The eight registers of the window (20_memory.md R65). -/
inductive WindowReg where
  | cmd
  | imm
  | status
  | result
  | ctrl
  | fcmd
  | fimm
  | params
deriving DecidableEq, Repr

/-- The offset of a register (20_memory.md R65). -/
def WindowReg.offset : WindowReg → Nat
  | .cmd => 0x00
  | .imm => 0x04
  | .status => 0x08
  | .result => 0x0C
  | .ctrl => 0x10
  | .fcmd => 0x14
  | .fimm => 0x18
  | .params => 0x1C

/-- The register at an offset; none where the offset is not that of a register (20_memory.md R64, R65). -/
def WindowReg.ofOffset : Nat → Option WindowReg
  | 0x00 => some .cmd
  | 0x04 => some .imm
  | 0x08 => some .status
  | 0x0C => some .result
  | 0x10 => some .ctrl
  | 0x14 => some .fcmd
  | 0x18 => some .fimm
  | 0x1C => some .params
  | _ => none

/-- `HostRead` (20_memory.md R65): CMD and CTRL read 0; no read has a side effect. -/
def State.readWindow (s : State) : WindowReg → Word
  | .cmd => 0
  | .imm => s.imm
  | .status => s.statusWord
  | .result => s.result
  | .ctrl => 0
  | .fcmd => s.fcmd
  | .fimm => s.fimm
  | .params => s.paramsWord

/-- A write to CTRL (10_state.md R32): SRESET (bit 1) resets, and then CLR is moot; CLR (bit 0) clears; bits 31:2 are
ignored. -/
def State.writeCtrl (s : State) (w : Word) : State :=
  if bitField w 1 1 = 1 then s.resetCore
  else if bitField w 0 1 = 1 then s.clearFault
  else s

/-- `HostWrite` (20_memory.md R65): writes to the read-only registers are ignored. -/
def State.writeWindow (s : State) (r : WindowReg) (w : Word) : State :=
  match r with
  | .cmd => s.submit w
  | .imm => { s with imm := w }
  | .status => s
  | .result => s
  | .ctrl => s.writeCtrl w
  | .fcmd => s
  | .fimm => s
  | .params => s

/-- The HOST's read of a register, with what it returned (log 4). -/
def State.hostRead (s : State) (r : WindowReg) : State := { s with reads := s.readWindow r :: s.reads }

/-- An access of the given width at a host address: what it does if it is one the window defines. An address outside
the window faults (20_memory.md R61) and any other access than an aligned 32-bit one is refused (R64; log 7). -/
def State.access (s : State) (width addr : Nat) (effect : WindowReg → State) : Host.Outcome State Fault Refusal :=
  if addr < s.config.windowBase ∨ s.config.windowBase + 32 ≤ addr then .fault (.outsideWindow addr)
  else if width ≠ 32 then .refused (.undefinedAccess width (addr - s.config.windowBase))
  else match WindowReg.ofOffset (addr - s.config.windowBase) with
    | some r => .next (effect r)
    | none => .refused (.undefinedAccess width (addr - s.config.windowBase))

/-- A HOST write of w to a window register (00_scope.md R11, 20_memory.md R65). -/
def Config.writes (c : Config) (r : WindowReg) (w : Word) : Event := .hostWrite 32 (c.windowBase + r.offset) w

/-- A HOST read of a window register (00_scope.md R11, 20_memory.md R65). -/
def Config.reads (c : Config) (r : WindowReg) : Event := .hostRead 32 (c.windowBase + r.offset)

/-- The byte lanes of a host bus (20_memory.md R63): lane 0, at the lower address, holds bits 7:0. -/
def busLanes (w : Word) : List Byte :=
  [w.extractLsb' 0 8, w.extractLsb' 8 8, w.extractLsb' 16 8, w.extractLsb' 24 8]

/-- The word four byte lanes carry (20_memory.md R63). -/
def wordOfLanes (l0 l1 l2 l3 : Byte) : Word := l3 ++ l2 ++ l1 ++ l0

end Sys2Proof.Machine
end

