-- ==== Sys2Proof/Machine/Turn.lean ====
section
/-! DEFINITION. What one event does: a HOST access, the platform's reset, or the CORE's turn (00_scope.md R4,
10_state.md R39, 70_reset_and_hazards.md R271). -/

namespace Sys2Proof.Machine

/-- The CORE step (10_state.md R39): the pending command is decoded and executed whole, or faults ILLEGAL
(30_encoding.md R92, 60_exceptions.md R233). An idle core does nothing (60_exceptions.md R254; log 13). -/
def State.coreStep (s : State) : Host.Outcome State Fault Refusal :=
  match s.pending with
  | none => .next s
  | some c =>
    match decode c with
    | .ok i => exec i s
    | .error _ => s.finish (.error .illegal)

/-- The effect of one event. -/
def State.deliver (s : State) : Event → Host.Outcome State Fault Refusal
  | .hostRead width addr => s.access width addr s.hostRead
  | .hostWrite width addr data => s.access width addr fun r => s.writeWindow r data
  | .platformReset => .next s.resetCore
  | .coreTurn => s.coreStep

end Sys2Proof.Machine
end

