-- ==== Sys2Proof/Machine/Step.lean ====
section
/-! DEFINITION. One step of the machine: the next event of the schedule, or, when none is scheduled, the CORE's turn,
so that a pending command is always executed in the end (70_reset_and_hazards.md R281; log 3). -/

namespace Sys2Proof.Machine

/-- One step (00_scope.md R4). -/
def step (s : State) : Host.Outcome State Fault Refusal :=
  match s.schedule with
  | [] => s.coreStep
  | e :: rest => State.deliver { s with schedule := rest } e

/-- The state in which the very next step executes the command whose bits are w: it is the pending command, as an
accepted CMD write leaves it, and the CORE has the next turn (log 5). -/
def State.withFetchWord (s : State) (nbits w : Nat) : State :=
  { s with pending := some (tableCommand nbits w), schedule := .coreTurn :: s.schedule }

end Sys2Proof.Machine
end

