-- ==== Sys2Proof/Machine/HostProgram.lean ====
section
/-! DEFINITION. What the HOST does to run commands: the issue protocol (70_reset_and_hazards.md R276) as events, the
pseudo-instructions (30_encoding.md R94), and the end of a run (70_reset_and_hazards.md R283). -/

namespace Sys2Proof.Machine

/-- The writes of ISSUE (70_reset_and_hazards.md R276): IMM, if the instruction uses imm, then CMD. -/
def Config.issueWrites (c : Config) (i : Instr) : List Event :=
  match i.immOperand with
  | some imm => [Config.writes c .imm imm, Config.writes c .cmd (encode i).word]
  | none => [Config.writes c .cmd (encode i).word]

/-- ISSUE (70_reset_and_hazards.md R276) as one interleaving: the writes, `polls` reads of STATUS that see BUSY = 1,
the CORE step, and the read of STATUS that sees BUSY = 0. The number of polls is not bounded (R281).
DESIGN CHOICE (log 21): the HOST makes no other access during the issue, and the read of RESULT with which R276 ends the
issue of a completed command that writes it is an event of its own after this list. -/
def Config.issue (c : Config) (i : Instr) (polls : Nat) : List Event :=
  Config.issueWrites c i ++ List.replicate polls (Config.reads c .status) ++ [.coreTurn, Config.reads c .status]

/-- The pseudo-instructions of 30_encoding.md R94. -/
inductive Pseudo where
  | destroy (rd : Reg)
  | zero (rd : Reg)
  | mov (rd rs1 : Reg)
  | li (rd : Reg) (imm : Word)
  | inc (rd : Reg)
  | sqr (rd rs1 : Reg)
  | parse (rd : Reg) (text : List Byte)
deriving DecidableEq, Repr

/-- The standard DEC operand for a character: base 10, `0x00000A00 | c` (30_encoding.md R85). -/
def decOperand (c : Byte) : Word := 0x00000A#24 ++ c

/-- The expansions of 30_encoding.md R94. -/
def Pseudo.expand : Pseudo → List Instr
  | .destroy rd => [.init rd]
  | .zero rd => [.init rd]
  | .mov rd rs1 => [.set rd rs1]
  | .li rd imm => [.setw rd imm]
  | .inc rd => [.addw rd rd 1]
  | .sqr rd rs1 => [.mul rd rs1 rs1]
  | .parse rd text => .init rd :: text.map fun c => .dec rd (decOperand c)

/-- A host program (70_reset_and_hazards.md R276): commands issued one after the other, each with a number of polls of
its own, since how many polls see BUSY = 1 is open for each command (R281, 93_implementation_defined.md P3).
DESIGN CHOICE (log 21): the HOST makes no access between two issues and goes on issuing after a command that faulted. -/
def Config.issueAll (c : Config) (program : List (Instr × Nat)) : List Event :=
  program.flatMap fun p => Config.issue c p.1 p.2

/-- The value of a string of ASCII digits, most significant first (42_conversions.md R135). -/
def decimalValue (text : List Byte) : Nat := text.foldl (fun v c => v * 10 + (c.toNat - 0x30)) 0

/-- Every character is an ASCII digit (42_conversions.md R131, R135). -/
def allDigits (text : List Byte) : Bool := text.all fun c => decide (0x30 ≤ c.toNat ∧ c.toNat ≤ 0x39)

/-! ## The end of a run (70_reset_and_hazards.md R283) -/

/-- The core is quiescent when BUSY = 0 (70_reset_and_hazards.md R283). -/
def State.quiescent (s : State) : Bool := !s.busy

/-- "Ran cleanly", asked of the end of a run (70_reset_and_hazards.md R283): FAULT = 0 and DROP = 0. -/
def State.ranCleanly (s : State) : Bool := !s.fault && !s.drop

/-- The event submits a command or is dropped: it is a write to CMD (10_state.md R36). -/
def Config.submits (c : Config) : Event → Bool
  | .hostWrite width addr _ => width == 32 && addr == c.windowBase + WindowReg.cmd.offset
  | .hostRead _ _ => false
  | .platformReset => false
  | .coreTurn => false

/-- The HOST is about to read STATUS, will see BUSY = 0, and has issued its last command: no write to CMD is still to
come (70_reset_and_hazards.md R283; log 20). -/
def State.endsRun (s : State) : Bool :=
  match s.schedule with
  | [] => false
  | e :: rest => e == Config.reads s.config .status && s.quiescent && !rest.any (Config.submits s.config)

/-- The state at the first read that ends the run, within n steps; none if a step stops before it. -/
def runEndWithin : Nat → State → Option State
  | 0, s => if s.endsRun then some s else none
  | n + 1, s =>
    if s.endsRun then some s
    else match step s with
      | .next t => runEndWithin n t
      | .fault _ => none
      | .refused _ => none

/-- The state at the read that ends the HOST's run (70_reset_and_hazards.md R283); none if the schedule holds no such
read, or an access that the window does not define comes before it. Every step but the CORE's on an empty schedule takes
one event, so as many steps as there are events are enough. -/
def State.runEnd (s : State) : Option State := runEndWithin s.schedule.length s

/-- What the end state of a run is (70_reset_and_hazards.md R283): the multi-precision registers and the window
registers. CMD and CTRL hold no state (10_state.md R32, R36). -/
structure EndState where
  regs   : Vector Mpr 16
  imm    : Word
  status : Word
  result : Word
  fcmd   : Word
  fimm   : Word
  params : Word
deriving DecidableEq, Repr

/-- The end state, read off the state at the read that ends the run (70_reset_and_hazards.md R283). -/
def State.endState (s : State) : EndState where
  regs := s.regs
  imm := s.imm
  status := s.statusWord
  result := s.result
  fcmd := s.fcmd
  fimm := s.fimm
  params := s.paramsWord

end Sys2Proof.Machine
end

