-- ==== Sys2Proof/Safety.lean ====
section
/-! DEFINITION. What holds of every reachable state, what a command may change, and runs, in the terms the statements
use. -/

namespace Sys2Proof.Machine

/-- A register as 10_state.md R21, R22 and R23 describe it: at most MAX_DIGITS digits, each below 2^31. -/
structure Mpr.Fits (maxDigits : Nat) (m : Mpr) : Prop where
  cap_le : m.cap ≤ maxDigits
  digit_lt : ∀ d ∈ m.digits, d.toNat < radix

/-- The invariant of the machine. -/
structure State.Inv (s : State) : Prop where
  /-- 3 <= MAX_DIGITS <= 2^24 - 1 (00_scope.md R8) -/
  config_legal : s.config.legal
  /-- the digit and capacity invariants (10_state.md R21, R22, R23) -/
  regs_fit : ∀ i : Reg, (s.reg i).Fits s.maxDigits
  /-- FAULT = 0 implies FCODE = 0 (10_state.md R31) -/
  no_fault_code : s.fault = false → s.fcode = 0
  /-- a recorded code is one of 0x01 to 0x07 (60_exceptions.md R232) -/
  fault_code : s.fault = true → ∃ c : FaultCode, s.fcode = c.code
  /-- FATAL = 1 exactly when the recorded fault is CAPACITY (10_state.md R31) -/
  fatal_iff : s.fatal = true ↔ s.fault = true ∧ s.fcode = FaultCode.capacity.code
  /-- a command is accepted only when FAULT = 0, so none is pending while FAULT = 1 (60_exceptions.md R243) -/
  pending_clean : s.pending.isSome = true → s.fault = false

/-- From s to t a command has completed and changed no register but rd, and nothing else of the state
(10_state.md R38, R39, R43). -/
def WritesOnly (rd : Reg) (s t : State) : Prop :=
  (∀ j : Reg, j ≠ rd → t.reg j = s.reg j) ∧ t = { s with regs := t.regs, pending := none }

/-- From s to t a command has completed and changed nothing but RESULT, which is w now (10_state.md R30, R39). -/
def ReturnsOnly (w : Word) (s t : State) : Prop := t = { s with result := w, pending := none }

/-- The events that reset the core: the platform's reset, and a write to CTRL with SRESET = 1
(70_reset_and_hazards.md R271). -/
def Config.isReset (c : Config) (e : Event) : Prop :=
  e = .platformReset ∨ ∃ w : Word, bitField w 1 1 = 1 ∧ e = Config.writes c .ctrl w

/-- A write to CTRL with CLR = 1 and SRESET = 0 (60_exceptions.md R244). -/
def Config.isClear (c : Config) (e : Event) : Prop :=
  ∃ w : Word, bitField w 0 1 = 1 ∧ bitField w 1 1 = 0 ∧ e = Config.writes c .ctrl w

/-- The CORE steps next: its turn is scheduled, or nothing is. -/
def State.coreNext (s : State) : Prop := s.schedule = [] ∨ ∃ rest, s.schedule = .coreTurn :: rest

/-- A run of n steps of the machine, from s. -/
def runFor (n : Nat) (s : State) : Host.Outcome State Fault Refusal := Sys2Proof.core.run n s

/-- An access the window defines: 32 bits, at a register's offset (20_memory.md R64, R65). -/
def Config.definedAccess (c : Config) (width addr : Nat) : Prop :=
  width = 32 ∧ ∃ r : WindowReg, addr = c.windowBase + r.offset

/-- An event that gives a next state: any but an access the window does not define. -/
def Config.definedEvent (c : Config) : Event → Prop
  | .hostRead width addr => Config.definedAccess c width addr
  | .hostWrite width addr _ => Config.definedAccess c width addr
  | .platformReset => True
  | .coreTurn => True

end Sys2Proof.Machine
end

