-- ==== Sys2Proof/Certificates/Slice0/Obligations.lean ====
section
/-! DEFINITION. The statements for the provers. Each docstring names the rule of spec/ it formalises. Where a statement
speaks of a HOST access, the access is the next event of State.schedule; that the model holds the order of the agents'
steps there, and gives the CORE the turn when nothing is scheduled, is the model's own (log 3). -/

open Sys2Proof Sys2Proof.Machine

/-! ## Encoding and decoding (30_encoding.md) -/

/-- 30_encoding.md R82, R86, R88, R89: every instruction that has an encoding decodes from it, with every operand. -/
def Obligations.DecodeEncodeGivesInstructionBack : Prop :=
  ∀ i : Instr, i.wf = true → decode (encode i) = .ok i

/-- 30_encoding.md R86, R87, R89: a word that decodes is exactly the encoding of its instruction ("one bit pattern per
instruction and operand choice"), and the instruction's operand, if it uses one, is the latched imm (R84). -/
def Obligations.DecodedWordIsExactEncoding : Prop :=
  ∀ (c : Command) (i : Instr), decode c = .ok i →
    i.wf = true ∧ (encode i).word = c.word ∧ (i.immOperand = none ∨ i.immOperand = some c.imm)

/-- 30_encoding.md R88, R92: a word decodes to an instruction exactly when a row of the opcode map matches it and it is
not DIVMOD with rd = rd2, and the instruction is the row's. -/
def Obligations.DecoderAgreesWithOpcodeMap : Prop :=
  ∀ w imm : Word,
    ((∃ i, decode ⟨w, imm⟩ = .ok i) ↔
      ∃ r ∈ opcodeRows, r.matchesWord w = true ∧ ¬ (r.mnemonic = "DIVMOD" ∧ rdField w = rd2Field w)) ∧
    ∀ i, decode ⟨w, imm⟩ = .ok i → ∃ r ∈ opcodeRows, r.matchesWord w = true ∧ r.mnemonic = i.mnemonic

/-- 30_encoding.md R92: "At most one row matches any word". -/
def Obligations.AtMostOneRowMatches : Prop :=
  ∀ (w : Word) (r r' : OpcodeRow), r ∈ opcodeRows → r' ∈ opcodeRows → r.matchesWord w = true →
    r'.matchesWord w = true → r = r'

/-- 30_encoding.md R90: every reserved opcode makes the command ILLEGAL (60_exceptions.md R233), whatever its other
bits. -/
def Obligations.ReservedOpcodeFaultsIllegal : Prop :=
  ∀ (s : State) (c : Command) (op : Nat), s.pending = some c → s.coreNext → opcodeField c.word = op →
    (op = 0x00 ∨ op = 0x07 ∨ (0x0A ≤ op ∧ op ≤ 0x0F) ∨ (0x12 ≤ op ∧ op ≤ 0x17) ∨ (0x1A ≤ op ∧ op ≤ 0x1F) ∨
      (0x23 ≤ op ∧ op ≤ 0x27) ∨ (0x2A ≤ op ∧ op ≤ 0x2F) ∨ (0x32 ≤ op ∧ op ≤ 0xFF)) →
    step s = .next { s with fault := true, fatal := false, fcode := 0x01#8, fcmd := c.word, fimm := c.imm,
                            pending := none, schedule := s.schedule.tail }

/-- 30_encoding.md R91: every word either is exactly one instruction or is ILLEGAL: a pending command whose word is the
encoding of no well-formed instruction faults with code 0x01 and no other effect than the fault record. -/
def Obligations.EveryWordIsInstructionOrIllegal : Prop :=
  ∀ (s : State) (c : Command), s.pending = some c → s.coreNext →
    (∃ i : Instr, i.wf = true ∧ (encode i).word = c.word ∧ decode c = .ok i ∧
      step s = exec i { s with schedule := s.schedule.tail } ∧ ∀ j, decode c = .ok j → j = i) ∨
    ((∀ i : Instr, i.wf = true → (encode i).word ≠ c.word) ∧
      step s = .next { s with fault := true, fatal := false, fcode := 0x01#8, fcmd := c.word, fimm := c.imm,
                              pending := none, schedule := s.schedule.tail })

/-- Sanity: words written out from the patterns of 30_encoding.md R88. -/
def Obligations.PatternWordsDecode : Prop :=
  decode ⟨0b00000001001100000000000000000000#32, 0⟩ = .ok (.init 3) ∧
  decode ⟨0b00010000001000010000000000000000#32, 7⟩ = .ok (.addw 2 1 7) ∧
  decode ⟨0b00011000001100010010000000000000#32, 0⟩ = .ok (.mul 3 1 2) ∧
  decode ⟨0b00100010001000010000000000000000#32, 31⟩ = .ok (.shl 2 1 31) ∧
  decode ⟨0b00101000001100010010010000000000#32, 0⟩ = .ok (.divmod 3 4 1 2) ∧
  decode ⟨0b00110001000000010000000000000000#32, 1⟩ = .ok (.rddig 1 1) ∧
  decode ⟨0b00101000001100010010001100000000#32, 0⟩ = .error .sameDestinations

/-! ## Reset and the invariant -/

/-- 10_state.md R44 of State.reset: every register empty and zero, every window register zero, nothing pending. PARAMS
shows MAX_DIGITS = 8, which is the model's choice (log 1). -/
def Obligations.ResetStateHoldsResetValues : Prop :=
  (∀ i : Reg, State.reset.cap i = 0 ∧ State.reset.val i = 0) ∧ State.reset.imm = 0x00000000#32 ∧
    State.reset.result = 0x00000000#32 ∧ State.reset.statusWord = 0x00000000#32 ∧
    State.reset.fcmd = 0x00000000#32 ∧ State.reset.fimm = 0x00000000#32 ∧ State.reset.pending = none ∧
    State.reset.paramsWord = 0x00000810#32

/-- 70_reset_and_hazards.md R272, R280 with the values of 10_state.md R44: from every state, busy or faulted, either
reset source (R271) sets every piece of state to its reset value; the pending command is abandoned, a FATAL fault is
cleared, PARAMS does not change. CLR in the same write is moot (10_state.md R32). -/
def Obligations.ResetSetsEveryPieceOfState : Prop :=
  ∀ (s : State) (e : Event) (rest : List Event), s.schedule = e :: rest → Config.isReset s.config e →
    ∃ t, step s = .next t ∧ (∀ i : Reg, t.cap i = 0 ∧ t.val i = 0) ∧ t.imm = 0x00000000#32 ∧
      t.result = 0x00000000#32 ∧ t.statusWord = 0x00000000#32 ∧ t.fault = false ∧ t.fatal = false ∧ t.drop = false ∧
      t.fcode = 0 ∧ t.fcmd = 0x00000000#32 ∧ t.fimm = 0x00000000#32 ∧ t.pending = none ∧ t.paramsWord = s.paramsWord

/-- The reset state meets the invariant (10_state.md R21, R22, R23, R31). -/
def Obligations.ResetStateMeetsInvariant : Prop := State.reset.Inv

/-- The invariant that every step keeps, from every state that meets it: every digit is below 2^31 and every capacity
at most MAX_DIGITS (10_state.md R21, R22), the fault record is consistent and its code one of the seven (10_state.md R31,
60_exceptions.md R232), and no command is pending while FAULT = 1 (R243). -/
def Obligations.StepKeepsInvariant : Prop :=
  ∀ s t : State, s.Inv → step s = .next t → t.Inv

/-- 10_state.md R35: PARAMS holds NREG = 16 in bits 7:0 and MAX_DIGITS in bits 31:8; it is read at offset 0x1C, a write
there changes nothing, and no step changes it. -/
def Obligations.ParamsIsConstant : Prop :=
  ∀ s : State, s.Inv →
    bitField s.paramsWord 0 8 = 16 ∧ bitField s.paramsWord 8 24 = s.maxDigits ∧
    (∀ rest, s.schedule = .hostRead 32 (s.config.windowBase + 0x1C) :: rest →
      step s = .next { s with schedule := rest, reads := s.paramsWord :: s.reads }) ∧
    (∀ w rest, s.schedule = .hostWrite 32 (s.config.windowBase + 0x1C) w :: rest →
      step s = .next { s with schedule := rest }) ∧
    (∀ t, step s = .next t → t.paramsWord = s.paramsWord ∧ t.config = s.config)

/-! ## Steps -/

/-- 10_state.md R39, 30_encoding.md R92: when a command is pending and the CORE steps next, the step is the meaning of
the decoded instruction, and takes nothing but the CORE's turn from the schedule. (Taking the CORE's turn when nothing
is scheduled is the model's choice, log 3.) -/
def Obligations.StepExecutesPendingCommand : Prop :=
  ∀ (s : State) (c : Command) (i : Instr), s.pending = some c → decode c = .ok i →
    (s.schedule = [] → step s = exec i s) ∧
    (∀ rest, s.schedule = .coreTurn :: rest → step s = exec i { s with schedule := rest })

/-- 60_exceptions.md R254: an idle core changes nothing on its turn (log 13). -/
def Obligations.IdleCoreChangesNothing : Prop :=
  ∀ s : State, s.pending = none →
    (s.schedule = [] → step s = .next s) ∧
    (∀ rest, s.schedule = .coreTurn :: rest → step s = .next { s with schedule := rest })

/-- 60_exceptions.md R231: a fault appears only in a CORE step, and FCMD and FIMM then hold the command executed. -/
def Obligations.OnlyCoreStepRaisesFaults : Prop :=
  ∀ s t : State, step s = .next t → s.fault = false → t.fault = true →
    s.coreNext ∧ ∃ c, s.pending = some c ∧ t.fcmd = c.word ∧ t.fimm = c.imm ∧ t.pending = none

/-- 10_state.md R39, 70_reset_and_hazards.md R281, R283: however the accesses are interleaved, a run whose accesses the
window defines reaches the end of its schedule with the core quiescent. A HOST's run ends at the first read of STATUS
that sees BUSY = 0 with no write to CMD still to come, and its end state is the registers at that read; a schedule that
closes with a CORE turn and a read of STATUS has such an end, and STATUS shows BUSY = 0 there. (The schedule is the
model's, log 3; that it shows which command is the last, log 20.) -/
def Obligations.RunReachesQuiescence : Prop :=
  (∀ s : State, (∀ e ∈ s.schedule, Config.definedEvent s.config e) →
    ∃ t, runFor (s.schedule.length + 1) s = .next t ∧ t.quiescent = true ∧ t.schedule = []) ∧
  (∀ u : State, u.endsRun = true ↔
    ∃ rest, u.schedule = Config.reads u.config .status :: rest ∧ u.quiescent = true ∧
      ∀ w : Word, Config.writes u.config .cmd w ∉ rest) ∧
  (∀ s u : State, s.runEnd = some u ↔
    ∃ n, runFor n s = .next u ∧ u.endsRun = true ∧ ∀ m < n, ∀ v, runFor m s = .next v → v.endsRun = false) ∧
  (∀ (s : State) (es : List Event), (∀ e ∈ es, Config.definedEvent s.config e) →
    s.schedule = es ++ [.coreTurn, Config.reads s.config .status] →
    ∃ u, s.runEnd = some u ∧ u.endState = ⟨u.regs, u.imm, u.statusWord, u.result, u.fcmd, u.fimm, u.paramsWord⟩ ∧
      bitField u.endState.status 0 1 = 0)

/-! ## The register window -/

/-- 20_memory.md R65: what a read of each window register returns, and that it changes nothing else. -/
def Obligations.WindowReadsHaveNoSideEffect : Prop :=
  ∀ (s : State) (r : WindowReg) (rest : List Event), s.schedule = Config.reads s.config r :: rest →
    ∃ w, step s = .next { s with schedule := rest, reads := w :: s.reads } ∧
      (r = .cmd → w = 0) ∧ (r = .imm → w = s.imm) ∧ (r = .status → w = s.statusWord) ∧ (r = .result → w = s.result) ∧
      (r = .ctrl → w = 0) ∧ (r = .fcmd → w = s.fcmd) ∧ (r = .fimm → w = s.fimm) ∧ (r = .params → w = s.paramsWord)

/-- 20_memory.md R65, 93_implementation_defined.md P11: writes to the read-only registers have no effect. -/
def Obligations.ReadOnlyRegistersIgnoreWrites : Prop :=
  ∀ (s : State) (r : WindowReg) (w : Word) (rest : List Event), s.schedule = Config.writes s.config r w :: rest →
    r = .status ∨ r = .result ∨ r = .fcmd ∨ r = .fimm ∨ r = .params → step s = .next { s with schedule := rest }

/-- 10_state.md R31: the fields of STATUS. -/
def Obligations.StatusWordHoldsFields : Prop :=
  ∀ s : State, bitField s.statusWord 0 1 = (if s.pending.isSome then 1 else 0) ∧
    bitField s.statusWord 1 1 = (if s.fault then 1 else 0) ∧ bitField s.statusWord 2 1 = (if s.fatal then 1 else 0) ∧
    bitField s.statusWord 3 1 = (if s.drop then 1 else 0) ∧ bitField s.statusWord 4 4 = 0 ∧
    bitField s.statusWord 8 8 = s.fcode.toNat ∧ bitField s.statusWord 16 16 = 0

/-- 20_memory.md R63: byte lane 0 holds bits 7:0, and the lanes carry the word. -/
def Obligations.BusLanesAreLittleEndian : Prop :=
  ∀ w : Word, ∃ l0 l1 l2 l3 : Byte, busLanes w = [l0, l1, l2, l3] ∧ wordOfLanes l0 l1 l2 l3 = w ∧
    l0.toNat = bitField w 0 8 ∧ l1.toNat = bitField w 8 8 ∧ l2.toNat = bitField w 16 8 ∧ l3.toNat = bitField w 24 8

/-- 20_memory.md R64: inside the window, an access that is not a 32-bit one at an offset that is a multiple of 4 is
refused, and every other one gives a step. -/
def Obligations.OnlyAlignedWordAccessesStep : Prop :=
  ∀ (s : State) (width offset : Nat) (rest : List Event), offset < 32 →
    s.schedule = .hostRead width (s.config.windowBase + offset) :: rest ∨
      (∃ w, s.schedule = .hostWrite width (s.config.windowBase + offset) w :: rest) →
    ((width = 32 ∧ offset % 4 = 0) → ∃ t, step s = .next t) ∧
    (¬ (width = 32 ∧ offset % 4 = 0) → step s = .refused (.undefinedAccess width offset))

/-- 20_memory.md R61: an access outside the 32-byte window reaches no register of the core; the model stops with a
fault (the model's choice, log 7). -/
def Obligations.AccessOutsideWindowFaults : Prop :=
  ∀ (s : State) (width addr : Nat) (rest : List Event),
    addr < s.config.windowBase ∨ s.config.windowBase + 32 ≤ addr →
    s.schedule = .hostRead width addr :: rest ∨ (∃ w, s.schedule = .hostWrite width addr w :: rest) →
    step s = .fault (.outsideWindow addr)

/-- 60_exceptions.md R243: a CMD write while BUSY = 1 or FAULT = 1 is dropped and only sets DROP; otherwise it is
accepted, with the operand IMM holds. -/
def Obligations.CmdWriteIsAcceptedOrDropped : Prop :=
  ∀ (s : State) (w : Word) (rest : List Event), s.schedule = Config.writes s.config .cmd w :: rest →
    ((s.busy = true ∨ s.fault = true) → step s = .next { s with schedule := rest, drop := true }) ∧
    ((s.busy = false ∧ s.fault = false) →
      ∃ t, step s = .next t ∧ t = { s with schedule := rest, pending := some ⟨w, s.imm⟩ } ∧ t.busy = true)

/-- 70_reset_and_hazards.md R277: the operand of a command is the value of IMM at the accepted CMD write, and a later
write to IMM, even while BUSY = 1, does not change the pending command: it is the operand of the next command. -/
def Obligations.ImmIsLatchedAtCmdWrite : Prop :=
  ∀ (s : State) (w : Word) (rest : List Event),
    (s.schedule = Config.writes s.config .cmd w :: rest → s.busy = false → s.fault = false →
      ∃ t, step s = .next t ∧ t.pending = some ⟨w, s.imm⟩) ∧
    (s.schedule = Config.writes s.config .imm w :: rest →
      step s = .next { s with schedule := rest, imm := w })

/-- 60_exceptions.md R244: CLR clears DROP, and, when FATAL = 0, FAULT and FCODE; FCMD, FIMM, the registers and all else
are kept, and the next CMD write is accepted again when FAULT = 0 (and no command is pending). -/
def Obligations.ClearReturnsFromFault : Prop :=
  ∀ (s : State) (w : Word) (rest : List Event), bitField w 0 1 = 1 → bitField w 1 1 = 0 →
    s.schedule = Config.writes s.config .ctrl w :: rest →
    (s.fatal = false → step s = .next { s with schedule := rest, drop := false, fault := false, fcode := 0 }) ∧
    (s.fatal = true → step s = .next { s with schedule := rest, drop := false }) ∧
    (∀ t v rest', s.pending = none → step s = .next t → t.fault = false →
      t.schedule = Config.writes t.config .cmd v :: rest' → ∃ u, step t = .next u ∧ u.pending = some ⟨v, t.imm⟩)

/-- 60_exceptions.md R245: while FATAL = 1, CLR clears DROP only, FAULT, FATAL and FCODE stay and no command is accepted,
through every step that is not a reset; a reset clears FATAL and empties every register. -/
def Obligations.FatalLastsUntilReset : Prop :=
  ∀ s : State, s.Inv → s.fatal = true →
    (∀ t, step s = .next t → (∀ e rest, s.schedule = e :: rest → ¬ Config.isReset s.config e) →
      t.fatal = true ∧ t.fault = true ∧ t.fcode = s.fcode ∧ t.pending = none) ∧
    (∀ e rest, s.schedule = e :: rest → Config.isClear s.config e →
      step s = .next { s with schedule := rest, drop := false }) ∧
    (∀ e rest, s.schedule = e :: rest → Config.isReset s.config e →
      ∃ t, step s = .next t ∧ t.fatal = false ∧ t.fault = false ∧ ∀ i : Reg, t.reg i = Mpr.empty)

/-- 60_exceptions.md R246: while FAULT = 1 no fault occurs: every step but a reset or a clear keeps the record of the
first fault, and a CMD write only sets DROP. -/
def Obligations.FirstFaultRecordIsKept : Prop :=
  ∀ s t : State, s.Inv → s.fault = true → step s = .next t →
    (∀ e rest, s.schedule = e :: rest → ¬ Config.isReset s.config e ∧ ¬ Config.isClear s.config e) →
    t.fault = true ∧ t.fatal = s.fatal ∧ t.fcode = s.fcode ∧ t.fcmd = s.fcmd ∧ t.fimm = s.fimm ∧ t.pending = none ∧
    t.regs = s.regs ∧ t.result = s.result ∧
    (∀ w rest, s.schedule = Config.writes s.config .cmd w :: rest → t = { s with schedule := rest, drop := true })

/-- 70_reset_and_hazards.md R278: while BUSY = 1 no HOST access but a reset changes a register, RESULT, FCMD, FIMM, FATAL,
FCODE or the pending command; STATUS goes on reading BUSY = 1 with FAULT = 0; and a read of RESULT, FCMD, FIMM or STATUS
returns the value that stands. -/
def Obligations.HostSeesOldValuesWhileBusy : Prop :=
  ∀ (s t : State) (e : Event) (rest : List Event), s.Inv → s.busy = true → s.schedule = e :: rest → e ≠ .coreTurn →
    ¬ Config.isReset s.config e → step s = .next t →
    t.regs = s.regs ∧ t.result = s.result ∧ t.fcmd = s.fcmd ∧ t.fimm = s.fimm ∧ t.fatal = s.fatal ∧ t.fcode = s.fcode ∧
    t.pending = s.pending ∧ bitField t.statusWord 0 1 = 1 ∧ bitField t.statusWord 1 1 = 0 ∧
    (e = Config.reads s.config .result → t.reads = s.result :: s.reads) ∧
    (e = Config.reads s.config .fcmd → t.reads = s.fcmd :: s.reads) ∧
    (e = Config.reads s.config .fimm → t.reads = s.fimm :: s.reads) ∧
    (e = Config.reads s.config .status → t.reads = s.statusWord :: s.reads ∧ t.statusWord = s.statusWord)

/-! ## Every command -/

/-- 60_exceptions.md R241: fault entry. When a command raises a fault, its CORE step changes exactly STATUS.FAULT, FATAL
and FCODE, FCMD, FIMM and BUSY; no register and not RESULT is written. -/
def Obligations.FaultEntryChangesOnlyTheRecord : Prop :=
  ∀ (s t : State) (c : Command), s.pending = some c → s.fault = false → s.coreNext → step s = .next t →
    t.fault = true →
    ∃ code : FaultCode, t = { s with fault := true, fatal := decide (code = .capacity), fcode := code.code,
                                     fcmd := c.word, fimm := c.imm, pending := none, schedule := s.schedule.tail }

/-- 10_state.md R43: a command that writes M[i] changes no other register; it changes RESULT only if it returns a scalar
(R30), never IMM (R29), DROP or the parameters, and it leaves the fault record alone unless it faults. Every command
completes in one step with BUSY = 0 (R39). -/
def Obligations.CommandChangesOnlyItsDestinations : Prop :=
  ∀ (i : Instr) (s : State), ∃ t, exec i s = .next t ∧ t.pending = none ∧
    (∀ j : Reg, j ∉ dests i → t.reg j = s.reg j) ∧ (writesResult i = false → t.result = s.result) ∧
    t.imm = s.imm ∧ t.drop = s.drop ∧ t.config = s.config ∧ t.schedule = s.schedule ∧ t.reads = s.reads ∧
    ((t.fault = s.fault ∧ t.fatal = s.fatal ∧ t.fcode = s.fcode ∧ t.fcmd = s.fcmd ∧ t.fimm = s.fimm) ∨
      (t.fault = true ∧ t.regs = s.regs ∧ t.result = s.result))

/-- 60_exceptions.md R232: INIT, COMPACT, SET, SETW, CMP, CMPW, TESTBIT, RDCAP and RDDIG raise no fault once decoded, and
each of the others raises only the codes of its rows. -/
def Obligations.CommandsRaiseOnlyTheirFaults : Prop :=
  ∀ (i : Instr) (s t : State), s.Inv → s.fault = false → exec i s = .next t → t.fault = true →
    (t.fcode = 0x02#8 ∧ ((∃ rd imm, i = .enlarge rd imm) ∨ (∃ rd imm, i = .dec rd imm) ∨ (∃ rd a imm, i = .addw rd a imm) ∨
      (∃ rd a imm, i = .mulw rd a imm) ∨ (∃ rd a b, i = .mul rd a b) ∨ (∃ rd imm, i = .setbit rd imm) ∨
      (∃ rd a imm, i = .shl rd a imm))) ∨
    (t.fcode = 0x03#8 ∧ ∃ rd a b, i = .sub rd a b) ∨
    (t.fcode = 0x04#8 ∧ ∃ q r a b, i = .divmod q r a b) ∨
    (t.fcode = 0x05#8 ∧ ∃ rd a b, i = .gcd rd a b) ∨
    ((t.fcode = 0x06#8 ∨ t.fcode = 0x07#8) ∧ ∃ rd imm, i = .dec rd imm)

/-! ## Values and result writes (10_state.md) -/

/-- 10_state.md R24: the value of a register is the sum of its digits' weights, 0 for capacity 0. -/
def Obligations.ValueIsSumOfDigitWeights : Prop :=
  (∀ m : Mpr, m.val = ∑ j ∈ Finset.range m.cap, m.digit j * 2 ^ (31 * j)) ∧
  (∀ m : Mpr, m.cap = 0 → m.val = 0) ∧ (∀ (m : Mpr) (j : Nat), m.cap ≤ j → m.digit j = 0)

/-- 10_state.md R25: len(v) is the least n with v < 2^(31*n), and digits(v, n) are the 31-bit slices of v. -/
def Obligations.LenIsLeastDigitCount : Prop :=
  len 0 = 0 ∧ ∀ v : Nat, v < 2 ^ (31 * len v) ∧ (∀ n, v < 2 ^ (31 * n) → len v ≤ n) ∧
    (∀ b, v ≠ 0 → 2 ^ (b - 1) ≤ v → v < 2 ^ b → len v = (b + 30) / 31) ∧
    (∀ n j, len v ≤ n → j < n → (Mpr.ofValue v n).digit j = (v >>> (31 * j)) &&& 0x7FFFFFFF)

/-- 10_state.md R27 and R28: the two result writes. -/
def Obligations.ResultWritesFollowTheirRules : Prop :=
  ∀ (s : State) (i : Reg) (v k : Nat),
    (s.maxDigits < max (max (s.cap i) k) (len v) → s.writeKeep i v k = .error .capacity) ∧
    (max (max (s.cap i) k) (len v) ≤ s.maxDigits →
      ∃ t, s.writeKeep i v k = .ok t ∧ t.cap i = max (max (s.cap i) k) (len v) ∧ t.val i = v ∧
        (∀ j, len v ≤ j → (t.reg i).digit j = 0) ∧ (∀ j : Reg, j ≠ i → t.reg j = s.reg j)) ∧
    (s.maxDigits < len v → s.writeCompact i v = .error .capacity) ∧
    (len v ≤ s.maxDigits →
      ∃ t, s.writeCompact i v = .ok t ∧ t.cap i = len v ∧ t.val i = v ∧ (t.reg i).canonical = true ∧
        (∀ j : Reg, j ≠ i → t.reg j = s.reg j))

/-! ## The instructions, family by family. Each says which word the instruction is (x is the imm of an instruction that
ignores it), when the command completes, with what result and what frame, and when it faults; `takeFault` is the entry
that FaultEntryChangesOnlyTheRecord states. -/

/-- 41_digit_store.md R111. -/
def Obligations.InitEmptiesRegister : Prop :=
  ∀ (s : State) (rd : Reg) (x : Word), decode ⟨commandWord 0x01 rd 0 0 0, x⟩ = .ok (.init rd) ∧
    ∃ t, exec (.init rd) s = .next t ∧ WritesOnly rd s t ∧ t.cap rd = 0 ∧ t.val rd = 0

/-- 41_digit_store.md R112: the capacity grows to imm and never shrinks, the digits that were there are kept, new digits
are 0; CAPACITY when imm > MAX_DIGITS. -/
def Obligations.EnlargeGrowsCapacity : Prop :=
  ∀ (s : State) (rd : Reg) (imm : Word), s.Inv →
    decode ⟨commandWord 0x02 rd 0 0 0, imm⟩ = .ok (.enlarge rd imm) ∧
    (imm.toNat ≤ s.maxDigits → ∃ t, exec (.enlarge rd imm) s = .next t ∧ WritesOnly rd s t ∧
      t.cap rd = max (s.cap rd) imm.toNat ∧ t.val rd = s.val rd ∧ (∀ j, (t.reg rd).digit j = (s.reg rd).digit j)) ∧
    (s.maxDigits < imm.toNat → exec (.enlarge rd imm) s = .next (s.takeFault .capacity))

/-- 41_digit_store.md R113: COMPACT gives the canonical form of the same value, changes nothing on a canonical register,
and so is idempotent. -/
def Obligations.CompactGivesCanonicalForm : Prop :=
  ∀ (s : State) (rd : Reg) (x : Word), s.Inv →
    decode ⟨commandWord 0x03 rd 0 0 0, x⟩ = .ok (.compact rd) ∧
    ∃ t, exec (.compact rd) s = .next t ∧ WritesOnly rd s t ∧ t.val rd = s.val rd ∧ t.cap rd = len (s.val rd) ∧
      (t.reg rd).canonical = true ∧ ((s.reg rd).canonical = true → t.reg rd = s.reg rd) ∧
      (∃ u, exec (.compact rd) t = .next u ∧ u.regs = t.regs)

/-- 41_digit_store.md R114: a deep copy; the larger capacity is kept and the excess digits are zero; rd = rs1 changes
nothing. -/
def Obligations.SetCopiesRegister : Prop :=
  ∀ (s : State) (rd rs1 : Reg) (x : Word), s.Inv →
    decode ⟨commandWord 0x04 rd rs1 0 0, x⟩ = .ok (.set rd rs1) ∧
    ∃ t, exec (.set rd rs1) s = .next t ∧ WritesOnly rd s t ∧ t.cap rd = max (s.cap rd) (s.cap rs1) ∧
      t.val rd = s.val rs1 ∧ (∀ j, (t.reg rd).digit j = (s.reg rs1).digit j) ∧ (rd = rs1 → t.regs = s.regs)

/-- 42_conversions.md R131, with the fault order of 60_exceptions.md R240: BADBASE, then BADDIGIT, then CAPACITY;
otherwise rd becomes rd * 10 + digit, with capacity max(old, len). -/
def Obligations.DecAppendsDecimalDigit : Prop :=
  ∀ (s : State) (rd : Reg) (imm : Word) (base ch : Nat), s.Inv → base = bitField imm 8 24 → ch = bitField imm 0 8 →
    decode ⟨commandWord 0x06 rd 0 0 0, imm⟩ = .ok (.dec rd imm) ∧
    (base ≠ 10 → exec (.dec rd imm) s = .next (s.takeFault .badBase)) ∧
    (base = 10 → (ch < 0x30 ∨ 0x39 < ch) → exec (.dec rd imm) s = .next (s.takeFault .badDigit)) ∧
    (base = 10 → 0x30 ≤ ch → ch ≤ 0x39 → s.maxDigits < len (s.val rd * 10 + (ch - 0x30)) →
      exec (.dec rd imm) s = .next (s.takeFault .capacity)) ∧
    (base = 10 → 0x30 ≤ ch → ch ≤ 0x39 → len (s.val rd * 10 + (ch - 0x30)) ≤ s.maxDigits →
      ∃ t, exec (.dec rd imm) s = .next t ∧ WritesOnly rd s t ∧ t.val rd = s.val rd * 10 + (ch - 0x30) ∧
        t.cap rd = max (s.cap rd) (len (s.val rd * 10 + (ch - 0x30))))

/-- 42_conversions.md R132: the digit comparison over max(cap, 2) positions compares the values. -/
def Obligations.CmpwComparesValueWithWord : Prop :=
  ∀ (s : State) (rs1 : Reg) (imm : Word), s.Inv →
    decode ⟨commandWord 0x09 0 rs1 0 0, imm⟩ = .ok (.cmpw rs1 imm) ∧
    ∃ t w, exec (.cmpw rs1 imm) s = .next t ∧ ReturnsOnly w s t ∧
      w = if s.val rs1 < imm.toNat then 0xFFFFFFFF#32 else if s.val rs1 = imm.toNat then 0#32 else 1#32

/-- 42_conversions.md R133. -/
def Obligations.RdcapReturnsCapacity : Prop :=
  ∀ (s : State) (rs1 : Reg) (x : Word), s.Inv →
    decode ⟨commandWord 0x30 0 rs1 0 0, x⟩ = .ok (.rdcap rs1) ∧
    ∃ t w, exec (.rdcap rs1) s = .next t ∧ ReturnsOnly w s t ∧ w.toNat = s.cap rs1 ∧ w.toNat ≤ s.maxDigits

/-- 42_conversions.md R134: digit imm of the value, 0 at or beyond the capacity; bit 31 is 0. -/
def Obligations.RddigReturnsDigit : Prop :=
  ∀ (s : State) (rs1 : Reg) (imm : Word), s.Inv →
    decode ⟨commandWord 0x31 0 rs1 0 0, imm⟩ = .ok (.rddig rs1 imm) ∧
    ∃ t w, exec (.rddig rs1 imm) s = .next t ∧ ReturnsOnly w s t ∧
      w.toNat = (if imm.toNat < s.cap rs1 then (s.reg rs1).digit imm.toNat else 0) ∧ bitField w 31 1 = 0 ∧
      w.toNat = s.val rs1 / 2 ^ (31 * imm.toNat) % 2 ^ 31

/-- 43_word_arith.md R151: the word, with capacity at least 2. -/
def Obligations.SetwSetsWord : Prop :=
  ∀ (s : State) (rd : Reg) (imm : Word), s.Inv →
    decode ⟨commandWord 0x05 rd 0 0 0, imm⟩ = .ok (.setw rd imm) ∧
    ∃ t, exec (.setw rd imm) s = .next t ∧ WritesOnly rd s t ∧ t.val rd = imm.toNat ∧ t.cap rd = max (s.cap rd) 2 ∧
      (t.reg rd).digit 0 = imm.toNat % 2 ^ 31 ∧ (t.reg rd).digit 1 = imm.toNat / 2 ^ 31 ∧
      ∀ j, 2 ≤ j → (t.reg rd).digit j = 0

/-- 43_word_arith.md R152: the carry chain adds the word, in place too. -/
def Obligations.AddwAddsWord : Prop :=
  ∀ (s : State) (rd rs1 : Reg) (imm : Word), s.Inv →
    decode ⟨commandWord 0x10 rd rs1 0 0, imm⟩ = .ok (.addw rd rs1 imm) ∧
    (len (s.val rs1 + imm.toNat) ≤ s.maxDigits → ∃ t, exec (.addw rd rs1 imm) s = .next t ∧ WritesOnly rd s t ∧
      t.val rd = s.val rs1 + imm.toNat ∧
      t.cap rd = max (max (s.cap rd) (s.cap rs1)) (len (s.val rs1 + imm.toNat))) ∧
    (s.maxDigits < len (s.val rs1 + imm.toNat) → exec (.addw rd rs1 imm) s = .next (s.takeFault .capacity))

/-- 43_word_arith.md R153: the schoolbook single-digit multiplication multiplies by the word, in place too. -/
def Obligations.MulwMultipliesByWord : Prop :=
  ∀ (s : State) (rd rs1 : Reg) (imm : Word), s.Inv →
    decode ⟨commandWord 0x11 rd rs1 0 0, imm⟩ = .ok (.mulw rd rs1 imm) ∧
    (len (s.val rs1 * imm.toNat) ≤ s.maxDigits → ∃ t, exec (.mulw rd rs1 imm) s = .next t ∧ WritesOnly rd s t ∧
      t.val rd = s.val rs1 * imm.toNat ∧
      t.cap rd = max (max (s.cap rd) (s.cap rs1)) (len (s.val rs1 * imm.toNat))) ∧
    (s.maxDigits < len (s.val rs1 * imm.toNat) → exec (.mulw rd rs1 imm) s = .next (s.takeFault .capacity))

/-- 44_mp_arith.md R171: the schoolbook product, canonical; CAPACITY by the length of the product only. -/
def Obligations.MulMultipliesValues : Prop :=
  ∀ (s : State) (rd rs1 rs2 : Reg) (x : Word), s.Inv →
    decode ⟨commandWord 0x18 rd rs1 rs2 0, x⟩ = .ok (.mul rd rs1 rs2) ∧
    (len (s.val rs1 * s.val rs2) ≤ s.maxDigits → ∃ t, exec (.mul rd rs1 rs2) s = .next t ∧ WritesOnly rd s t ∧
      t.val rd = s.val rs1 * s.val rs2 ∧ t.cap rd = len (s.val rs1 * s.val rs2)) ∧
    (s.maxDigits < len (s.val rs1 * s.val rs2) → exec (.mul rd rs1 rs2) s = .next (s.takeFault .capacity))

/-- 44_mp_arith.md R172: the borrow chain subtracts, canonical; NEGATIVE exactly when the value is smaller. -/
def Obligations.SubSubtractsOrFaultsNegative : Prop :=
  ∀ (s : State) (rd rs1 rs2 : Reg) (x : Word), s.Inv →
    decode ⟨commandWord 0x19 rd rs1 rs2 0, x⟩ = .ok (.sub rd rs1 rs2) ∧
    (s.val rs2 ≤ s.val rs1 → ∃ t, exec (.sub rd rs1 rs2) s = .next t ∧ WritesOnly rd s t ∧
      t.val rd = s.val rs1 - s.val rs2 ∧ t.cap rd = len (s.val rs1 - s.val rs2)) ∧
    (s.val rs1 < s.val rs2 → exec (.sub rd rs1 rs2) s = .next (s.takeFault .negative))

/-- 44_mp_arith.md R173: the digit comparison compares the values, whatever the capacities. -/
def Obligations.CmpComparesValues : Prop :=
  ∀ (s : State) (rs1 rs2 : Reg) (x : Word), s.Inv →
    decode ⟨commandWord 0x08 0 rs1 rs2 0, x⟩ = .ok (.cmp rs1 rs2) ∧
    ∃ t w, exec (.cmp rs1 rs2) s = .next t ∧ ReturnsOnly w s t ∧
      w = if s.val rs1 < s.val rs2 then 0xFFFFFFFF#32 else if s.val rs1 = s.val rs2 then 0#32 else 1#32

/-- 44_mp_arith.md R173 (95_test_vectors.md Q2): swapping CMP's operands negates RESULT. -/
def Obligations.CmpSwapNegatesResult : Prop :=
  ∀ (s t u : State) (rs1 rs2 : Reg), s.Inv → exec (.cmp rs1 rs2) s = .next t → exec (.cmp rs2 rs1) s = .next u →
    t.result = -u.result

/-- 44_mp_arith.md R171 (95_test_vectors.md Q3): MUL is commutative in value, capacity and digits, and in its fault. -/
def Obligations.MulIsCommutative : Prop :=
  ∀ (s : State) (rd rs1 rs2 : Reg), s.Inv → exec (.mul rd rs1 rs2) s = exec (.mul rd rs2 rs1) s

/-- 45_bit_ops.md R191: the bit of the value, 0 beyond the capacity. -/
def Obligations.TestbitReturnsBit : Prop :=
  ∀ (s : State) (rs1 : Reg) (imm : Word), s.Inv →
    decode ⟨commandWord 0x20 0 rs1 0 0, imm⟩ = .ok (.testbit rs1 imm) ∧
    ∃ t w, exec (.testbit rs1 imm) s = .next t ∧ ReturnsOnly w s t ∧
      w = (if (s.val rs1).testBit imm.toNat then 1#32 else 0#32) ∧ (31 * s.cap rs1 ≤ imm.toNat → w = 0#32)

/-- 45_bit_ops.md R192: the bit becomes 1, every other bit stays, the register covers it; a canonical register stays
canonical; CAPACITY by the index, also when the bit is set already. -/
def Obligations.SetbitSetsBit : Prop :=
  ∀ (s : State) (rd : Reg) (imm : Word), s.Inv →
    decode ⟨commandWord 0x21 rd 0 0 0, imm⟩ = .ok (.setbit rd imm) ∧
    (imm.toNat / 31 + 1 ≤ s.maxDigits → ∃ t, exec (.setbit rd imm) s = .next t ∧ WritesOnly rd s t ∧
      (∀ k, (t.val rd).testBit k = (decide (k = imm.toNat) || (s.val rd).testBit k)) ∧
      t.cap rd = max (s.cap rd) (imm.toNat / 31 + 1) ∧
      ((s.reg rd).canonical = true → (t.reg rd).canonical = true) ∧
      ((s.val rd).testBit imm.toNat = true → t.regs = s.regs)) ∧
    (s.maxDigits < imm.toNat / 31 + 1 → exec (.setbit rd imm) s = .next (s.takeFault .capacity))

/-- 45_bit_ops.md R193: the two-digit assembly multiplies by 2^imm, canonical; a zero value never faults. -/
def Obligations.ShlMultipliesByPowerOfTwo : Prop :=
  ∀ (s : State) (rd rs1 : Reg) (imm : Word), s.Inv →
    decode ⟨commandWord 0x22 rd rs1 0 0, imm⟩ = .ok (.shl rd rs1 imm) ∧
    (len (s.val rs1 * 2 ^ imm.toNat) ≤ s.maxDigits → ∃ t, exec (.shl rd rs1 imm) s = .next t ∧ WritesOnly rd s t ∧
      t.val rd = s.val rs1 * 2 ^ imm.toNat ∧ t.cap rd = len (s.val rs1 * 2 ^ imm.toNat)) ∧
    (s.maxDigits < len (s.val rs1 * 2 ^ imm.toNat) → exec (.shl rd rs1 imm) s = .next (s.takeFault .capacity)) ∧
    (s.val rs1 = 0 → ∃ t, exec (.shl rd rs1 imm) s = .next t ∧ t.val rd = 0 ∧ t.cap rd = 0)

/-- 46_division.md R211: the bit-serial loop gives quotient and remainder, both canonical, from the operands as they were
before the command; DIVZERO when the divisor's value is 0; rd = rd2 is no instruction (30_encoding.md R89). -/
def Obligations.DivmodDividesOrFaultsDivzero : Prop :=
  ∀ (s : State) (rd rd2 rs1 rs2 : Reg) (x : Word), s.Inv →
    (rd = rd2 → decode ⟨commandWord 0x28 rd rs1 rs2 rd2, x⟩ = .error .sameDestinations) ∧
    (rd ≠ rd2 → decode ⟨commandWord 0x28 rd rs1 rs2 rd2, x⟩ = .ok (.divmod rd rd2 rs1 rs2) ∧
      (s.val rs2 ≠ 0 → ∃ t, exec (.divmod rd rd2 rs1 rs2) s = .next t ∧
        t.val rd = s.val rs1 / s.val rs2 ∧ t.cap rd = len (s.val rs1 / s.val rs2) ∧
        t.val rd2 = s.val rs1 % s.val rs2 ∧ t.cap rd2 = len (s.val rs1 % s.val rs2) ∧
        (∀ j : Reg, j ≠ rd → j ≠ rd2 → t.reg j = s.reg j) ∧ t = { s with regs := t.regs, pending := none }) ∧
      (s.val rs2 = 0 → exec (.divmod rd rd2 rs1 rs2) s = .next (s.takeFault .divZero)))

/-- 46_division.md R212: the pair DIVMOD gives is the unique one with n = q * d + r and r < d. -/
def Obligations.DivmodPairIsUnique : Prop :=
  ∀ (s : State) (rd rd2 rs1 rs2 : Reg), s.Inv → rd ≠ rd2 → 1 ≤ s.val rs2 →
    ∃ t, exec (.divmod rd rd2 rs1 rs2) s = .next t ∧ s.val rs1 = t.val rd * s.val rs2 + t.val rd2 ∧
      t.val rd2 < s.val rs2 ∧
      ∀ q r, s.val rs1 = q * s.val rs2 + r → r < s.val rs2 → q = t.val rd ∧ r = t.val rd2

/-- 46_division.md R213: Euclid's loop gives the greatest common divisor, canonical; GCDZERO when either operand's value
is 0. -/
def Obligations.GcdGivesGreatestCommonDivisor : Prop :=
  ∀ (s : State) (rd rs1 rs2 : Reg) (x : Word), s.Inv →
    decode ⟨commandWord 0x29 rd rs1 rs2 0, x⟩ = .ok (.gcd rd rs1 rs2) ∧
    (s.val rs1 ≠ 0 → s.val rs2 ≠ 0 → ∃ t, exec (.gcd rd rs1 rs2) s = .next t ∧ WritesOnly rd s t ∧
      t.val rd = Nat.gcd (s.val rs1) (s.val rs2) ∧ t.cap rd = len (Nat.gcd (s.val rs1) (s.val rs2))) ∧
    ((s.val rs1 = 0 ∨ s.val rs2 = 0) → exec (.gcd rd rs1 rs2) s = .next (s.takeFault .gcdZero))

/-- 46_division.md R214: GCD's result divides both operands; GCD(a, b) = GCD(b, a mod b) when a mod b is nonzero, and is b
when a mod b = 0. -/
def Obligations.GcdObeysEuclidLaws : Prop :=
  ∀ (s t : State) (rd rs1 rs2 : Reg), s.Inv → s.val rs1 ≠ 0 → s.val rs2 ≠ 0 → exec (.gcd rd rs1 rs2) s = .next t →
    t.val rd ∣ s.val rs1 ∧ t.val rd ∣ s.val rs2 ∧
    (s.val rs1 % s.val rs2 = 0 → t.val rd = s.val rs2) ∧
    (s.val rs1 % s.val rs2 ≠ 0 → ∀ (s' t' : State) (rd' a b : Reg), s'.Inv → s'.val a = s.val rs2 →
      s'.val b = s.val rs1 % s.val rs2 → exec (.gcd rd' a b) s' = .next t' → t'.val rd' = t.val rd)

/-! ## The host's protocol -/

/-- 70_reset_and_hazards.md R276: ISSUE from an idle core without a fault, with any number of polls: the command executes
on the operand written to IMM, every poll before the CORE step reads BUSY = 1, and the last one reads BUSY = 0, with
FAULT = 1 and the code exactly when the command faulted. A read of RESULT after it returns the command's result. -/
def Obligations.IssueRunsOneCommand : Prop :=
  ∀ (s : State) (i : Instr) (polls : Nat) (rest : List Event), i.wf = true → s.pending = none → s.fault = false →
    s.schedule = Config.issue s.config i polls ++ rest →
    ∃ (u t : State) (b f : Word),
      u = { s with imm := i.immOperand.getD s.imm,
                   pending := some ⟨(encode i).word, i.immOperand.getD s.imm⟩,
                   schedule := Config.reads s.config .status :: rest,
                   reads := List.replicate polls b ++ s.reads } ∧
      exec i u = .next t ∧ bitField b 0 1 = 1 ∧ bitField b 1 1 = 0 ∧
      bitField f 0 1 = 0 ∧ bitField f 1 1 = (if t.fault then 1 else 0) ∧ bitField f 8 8 = t.fcode.toNat ∧
      runFor (Config.issue s.config i polls).length s = .next { t with schedule := rest, reads := f :: t.reads } ∧
      (∀ rest', rest = Config.reads s.config .result :: rest' →
        runFor ((Config.issue s.config i polls).length + 1) s
          = .next { t with schedule := rest', reads := t.result :: f :: t.reads })

/-- 42_conversions.md R135: PARSE of a string of ASCII digits leaves its decimal value, canonical, provided it fits; the
empty string gives 0. A character that is no digit faults BADDIGIT and the register keeps the value of the digits before
it. Each command of the expansion is issued with any number of polls of its own (70_reset_and_hazards.md R281). -/
def Obligations.ParseGivesDecimalValue : Prop :=
  ∀ (s : State) (rd : Reg) (text : List Byte) (program : List (Instr × Nat)) (rest : List Event), s.Inv →
    s.pending = none → s.fault = false → allDigits text = true → len (decimalValue text) ≤ s.maxDigits →
    s.schedule = Config.issueAll s.config program ++ rest →
    (program.map Prod.fst = Pseudo.expand (.parse rd text) →
      ∃ t, runFor (Config.issueAll s.config program).length s = .next t ∧
        t.val rd = decimalValue text ∧ t.cap rd = len (decimalValue text) ∧ t.fault = false ∧ t.pending = none ∧
        t.schedule = rest) ∧
    (∀ c : Byte, (c.toNat < 0x30 ∨ 0x39 < c.toNat) →
      program.map Prod.fst = Pseudo.expand (.parse rd (text ++ [c])) →
      ∃ t, runFor (Config.issueAll s.config program).length s = .next t ∧
        t.fault = true ∧ t.fcode = 0x06#8 ∧ t.val rd = decimalValue text ∧ t.pending = none ∧ t.schedule = rest)

/-- 42_conversions.md R131: the DEC step equals MULW by 10 followed by ADDW of the digit, in value and in capacity. -/
def Obligations.DecEqualsMulwThenAddw : Prop :=
  ∀ (s t : State) (rd : Reg) (c : Byte), s.Inv → 0x30 ≤ c.toNat → c.toNat ≤ 0x39 →
    len (s.val rd * 10 + (c.toNat - 0x30)) ≤ s.maxDigits → exec (.dec rd (decOperand c)) s = .next t →
    ∃ u v, exec (.mulw rd rd 10#32) s = .next u ∧ exec (.addw rd rd (BitVec.ofNat 32 (c.toNat - 0x30))) u = .next v ∧
      v.regs = t.regs
end

