-- ==== Sys2Proof/Laws/Digits.lean ====
section
/-! SUPPORT. Digit sequences and their values (10_state.md R22 to R26): the laws every statement about a register's
value goes through. -/

namespace Sys2Proof.Machine

theorem radix_eq : radix = 2 ^ 31 := rfl

theorem radix_pow (n : Nat) : radix ^ n = 2 ^ (31 * n) := by
  rw [pow_mul]; rfl

theorem radix_pow_pos (n : Nat) : 0 < radix ^ n := by positivity

/-! ## The minimal length (R25) -/

theorem len_zero : len 0 = 0 := by simp [len]

theorem len_eq_zero_iff {v : Nat} : len v = 0 ↔ v = 0 := by
  unfold len; split <;> simp_all

/-- len(v) is the least n with v < 2^(31*n): the one characterisation the other laws use. -/
theorem len_le_iff {v n : Nat} : len v ≤ n ↔ v < radix ^ n := by
  rw [radix_pow]
  unfold len
  split
  · simp_all
  · next h => rw [← Nat.log2_lt h]; omega

theorem lt_radix_pow_len (v : Nat) : v < radix ^ len v := len_le_iff.1 le_rfl

theorem len_mono {v w : Nat} (h : v ≤ w) : len v ≤ len w :=
  len_le_iff.2 (lt_of_le_of_lt h (lt_radix_pow_len w))

theorem len_word (w : Word) : len w.toNat ≤ 2 := by
  have := w.isLt
  exact len_le_iff.2 (by simp only [radix]; omega)

/-! ## The value of a digit sequence (R24) -/

@[simp] theorem digitsValue_nil : digitsValue [] = 0 := rfl

@[simp] theorem digitsValue_cons (d : Nat) (ds : List Nat) :
    digitsValue (d :: ds) = d + radix * digitsValue ds := rfl

theorem digitsValue_append (ds es : List Nat) :
    digitsValue (ds ++ es) = digitsValue ds + radix ^ ds.length * digitsValue es := by
  induction ds with
  | nil => simp
  | cons d ds ih => simp [ih, pow_succ]; ring

theorem digitsValue_replicate_zero (n : Nat) : digitsValue (List.replicate n 0) = 0 := by
  induction n with
  | zero => rfl
  | succ n ih => simp [List.replicate_succ, ih]

theorem digitsValue_lt {ds : List Nat} (h : ∀ d ∈ ds, d < radix) : digitsValue ds < radix ^ ds.length := by
  induction ds with
  | nil => simp
  | cons d ds ih =>
    have hd := h d (by simp)
    have hs := ih fun x hx => h x (by simp [hx])
    simp only [digitsValue_cons, List.length_cons, pow_succ]
    nlinarith

/-- The sum form in which R24 writes the value. -/
theorem digitsValue_eq_sum (ds : List Nat) :
    digitsValue ds = ∑ j ∈ Finset.range ds.length, ds.getD j 0 * 2 ^ (31 * j) := by
  induction ds with
  | nil => simp
  | cons d ds ih =>
    rw [digitsValue_cons, ih, List.length_cons, Finset.sum_range_succ']
    simp only [List.getD_cons_succ, List.getD_cons_zero, Finset.mul_sum]
    have hj : ∀ j, radix * (ds.getD j 0 * 2 ^ (31 * j)) = ds.getD j 0 * 2 ^ (31 * (j + 1)) := fun j => by
      rw [show 31 * (j + 1) = 31 * j + 31 by ring, pow_add]; simp only [radix]; ring
    simp only [hj]
    ring

/-- Digit j of a sequence is the j-th digit of its value. -/
theorem digitsValue_digit {ds : List Nat} (h : ∀ d ∈ ds, d < radix) (j : Nat) :
    digitsValue ds / radix ^ j % radix = ds.getD j 0 := by
  induction ds generalizing j with
  | nil => simp
  | cons d ds ih =>
    have hd := h d (by simp)
    have hs := ih fun x hx => h x (by simp [hx])
    cases j with
    | zero => simp [Nat.add_mul_mod_self_left, Nat.mod_eq_of_lt hd]
    | succ j =>
      rw [pow_succ', ← Nat.div_div_eq_div_mul, digitsValue_cons, List.getD_cons_succ, ← hs j,
        Nat.add_mul_div_left _ _ (show 0 < radix by decide), Nat.div_eq_of_lt hd, zero_add]

/-! ## The digits of a value (R25) -/

@[simp] theorem length_digitsOf (v n : Nat) : (digitsOf v n).length = n := by
  induction n generalizing v with
  | zero => rfl
  | succ n ih => simp [digitsOf, ih]

theorem digitsOf_lt {v n d : Nat} (h : d ∈ digitsOf v n) : d < radix := by
  induction n generalizing v with
  | zero => simp [digitsOf] at h
  | succ n ih =>
    rcases List.mem_cons.1 h with rfl | h
    · exact Nat.mod_lt _ (by decide)
    · exact ih h

theorem digitsValue_digitsOf {v n : Nat} (h : v < radix ^ n) : digitsValue (digitsOf v n) = v := by
  induction n generalizing v with
  | zero => simp at h; simp [digitsOf, h]
  | succ n ih =>
    have : v / radix < radix ^ n := Nat.div_lt_of_lt_mul (by rwa [← pow_succ'])
    simp only [digitsOf, digitsValue_cons, ih this]
    exact Nat.mod_add_div v radix

/-- A sequence of digits is determined by its length and value. -/
theorem digitsOf_digitsValue {ds : List Nat} (h : ∀ d ∈ ds, d < radix) :
    digitsOf (digitsValue ds) ds.length = ds := by
  induction ds with
  | nil => rfl
  | cons d ds ih =>
    have hd := h d (by simp)
    have hs := ih fun x hx => h x (by simp [hx])
    simp only [digitsValue_cons, List.length_cons, digitsOf, Nat.add_mul_mod_self_left, Nat.mod_eq_of_lt hd,
      Nat.add_mul_div_left _ _ (show 0 < radix by decide), Nat.div_eq_of_lt hd, zero_add, hs]

theorem digitsOf_getD (v n j : Nat) : (digitsOf v n).getD j 0 = if j < n then v / radix ^ j % radix else 0 := by
  induction n generalizing v j with
  | zero => simp [digitsOf]
  | succ n ih =>
    cases j with
    | zero => simp [digitsOf]
    | succ j =>
      rw [digitsOf, List.getD_cons_succ, ih, pow_succ', ← Nat.div_div_eq_div_mul]
      simp

/-! ## Registers -/

@[simp] theorem Mpr.length_nats (m : Mpr) : m.nats.length = m.cap := by simp [Mpr.nats, Mpr.cap]

@[simp] theorem Mpr.cap_empty : Mpr.empty.cap = 0 := rfl

@[simp] theorem Mpr.val_empty : Mpr.empty.val = 0 := rfl

theorem Mpr.digit_of_cap_le {m : Mpr} {j : Nat} (h : m.cap ≤ j) : m.digit j = 0 := by
  simp [Mpr.digit, h]

theorem Mpr.Fits.nats_lt {k : Nat} {m : Mpr} (h : m.Fits k) : ∀ d ∈ m.nats, d < radix := by
  intro d hd
  obtain ⟨x, hx, rfl⟩ := List.mem_map.1 hd
  exact h.digit_lt x hx

theorem Mpr.Fits.digit_lt' {k : Nat} {m : Mpr} (h : m.Fits k) (j : Nat) : m.digit j < radix := by
  unfold Mpr.digit
  rw [← digitsValue_digit h.nats_lt]
  exact Nat.mod_lt _ (by decide)

theorem Mpr.Fits.val_lt {k : Nat} {m : Mpr} (h : m.Fits k) : m.val < radix ^ m.cap := by
  simpa [Mpr.val] using digitsValue_lt h.nats_lt

theorem Mpr.Fits.len_val_le {k : Nat} {m : Mpr} (h : m.Fits k) : len m.val ≤ m.cap := len_le_iff.2 h.val_lt

/-- The register's digit j is digit j of its value (R24). -/
theorem Mpr.Fits.digit_eq {k : Nat} {m : Mpr} (h : m.Fits k) (j : Nat) : m.digit j = m.val / radix ^ j % radix :=
  (digitsValue_digit h.nats_lt j).symm

@[simp] theorem Mpr.cap_ofValue (v n : Nat) : (Mpr.ofValue v n).cap = n := by simp [Mpr.ofValue, Mpr.cap]

theorem Mpr.nats_ofValue (v n : Nat) : (Mpr.ofValue v n).nats = digitsOf v n := by
  unfold Mpr.ofValue Mpr.nats
  rw [List.map_map]
  conv_rhs => rw [← List.map_id (digitsOf v n)]
  refine List.map_congr_left fun d hd => ?_
  have := digitsOf_lt hd
  simp only [radix] at this
  simp only [Function.comp_apply, BitVec.toNat_ofNat, id]
  omega

theorem Mpr.val_ofValue {v n : Nat} (h : len v ≤ n) : (Mpr.ofValue v n).val = v := by
  rw [Mpr.val, Mpr.nats_ofValue, digitsValue_digitsOf (len_le_iff.1 h)]

theorem Mpr.fits_ofValue {v n k : Nat} (h : n ≤ k) : (Mpr.ofValue v n).Fits k := by
  refine ⟨by simpa using h, fun d hd => ?_⟩
  have hm : d.toNat ∈ (Mpr.ofValue v n).nats := List.mem_map_of_mem hd
  rw [Mpr.nats_ofValue] at hm
  exact digitsOf_lt hm

theorem Mpr.fits_empty (k : Nat) : Mpr.empty.Fits k := ⟨Nat.zero_le _, by simp [Mpr.empty]⟩

/-- Two registers with the same capacity and value hold the same digits. -/
theorem Mpr.ofValue_val {k : Nat} {m : Mpr} (h : m.Fits k) : Mpr.ofValue m.val m.cap = m := by
  have hn : (Mpr.ofValue m.val m.cap).nats = m.nats := by
    rw [Mpr.nats_ofValue, Mpr.val, ← Mpr.length_nats, digitsOf_digitsValue h.nats_lt]
  have hinj : Function.Injective (List.map (BitVec.toNat (w := 32))) :=
    List.map_injective_iff.2 fun a b hab => BitVec.eq_of_toNat_eq hab
  cases m with
  | mk ds => exact congrArg Mpr.mk (hinj hn)

theorem Mpr.canonical_ofValue_len (v : Nat) : (Mpr.ofValue v (len v)).canonical = true := by
  simp [Mpr.canonical, Mpr.val_ofValue le_rfl]

end Sys2Proof.Machine
end

