-- ==== Sys2Proof/Laws/Encoding.lean ====
section
/-! SUPPORT. The fields of an encoded instruction word (30_encoding.md R82). -/

namespace Sys2Proof

theorem commandWord_toNat {op : Nat} (h : op < 256) (rd rs1 rs2 rd2 : Reg) :
    (commandWord op rd rs1 rs2 rd2).toNat
      = op * 2 ^ 24 + rd.val * 2 ^ 20 + rs1.val * 2 ^ 16 + rs2.val * 2 ^ 12 + rd2.val * 2 ^ 8 := by
  have := rd.isLt; have := rs1.isLt; have := rs2.isLt; have := rd2.isLt
  rw [commandWord, BitVec.toNat_ofNat]
  omega

theorem opcodeField_commandWord {op : Nat} (h : op < 256) (rd rs1 rs2 rd2 : Reg) :
    opcodeField (commandWord op rd rs1 rs2 rd2) = op := by
  have := rd.isLt; have := rs1.isLt; have := rs2.isLt; have := rd2.isLt
  rw [opcodeField, bitField, commandWord_toNat h]
  omega

theorem reservedField_commandWord {op : Nat} (h : op < 256) (rd rs1 rs2 rd2 : Reg) :
    reservedField (commandWord op rd rs1 rs2 rd2) = 0 := by
  rw [reservedField, bitField, commandWord_toNat h]
  omega

theorem rdField_commandWord {op : Nat} (h : op < 256) (rd rs1 rs2 rd2 : Reg) :
    rdField (commandWord op rd rs1 rs2 rd2) = rd := by
  have := rd.isLt; have := rs1.isLt; have := rs2.isLt; have := rd2.isLt
  apply Fin.ext
  simp only [rdField, regField]
  rw [commandWord_toNat h]
  omega

theorem rs1Field_commandWord {op : Nat} (h : op < 256) (rd rs1 rs2 rd2 : Reg) :
    rs1Field (commandWord op rd rs1 rs2 rd2) = rs1 := by
  have := rd.isLt; have := rs1.isLt; have := rs2.isLt; have := rd2.isLt
  apply Fin.ext
  simp only [rs1Field, regField]
  rw [commandWord_toNat h]
  omega

theorem rs2Field_commandWord {op : Nat} (h : op < 256) (rd rs1 rs2 rd2 : Reg) :
    rs2Field (commandWord op rd rs1 rs2 rd2) = rs2 := by
  have := rd.isLt; have := rs1.isLt; have := rs2.isLt; have := rd2.isLt
  apply Fin.ext
  simp only [rs2Field, regField]
  rw [commandWord_toNat h]
  omega

theorem rd2Field_commandWord {op : Nat} (h : op < 256) (rd rs1 rs2 rd2 : Reg) :
    rd2Field (commandWord op rd rs1 rs2 rd2) = rd2 := by
  have := rd.isLt; have := rs1.isLt; have := rs2.isLt; have := rd2.isLt
  apply Fin.ext
  simp only [rd2Field, regField]
  rw [commandWord_toNat h]
  omega

/-- A word is put together from its fields: with the reserved bits zero, it is the commandWord of them. -/
theorem commandWord_fields {w : Word} (h : reservedField w = 0) :
    commandWord (opcodeField w) (rdField w) (rs1Field w) (rs2Field w) (rd2Field w) = w := by
  have hw := w.isLt
  apply BitVec.eq_of_toNat_eq
  rw [commandWord_toNat (show opcodeField w < 256 from Nat.mod_lt _ (by decide))]
  simp only [opcodeField, reservedField, bitField, rdField, rs1Field, rs2Field, rd2Field, regField] at h ⊢
  omega

/-- Decoding a command word gives the decoder its fields. -/
theorem decode_commandWord {op : Nat} (h : op < 256) (rd rs1 rs2 rd2 : Reg) (imm : Word) :
    decode ⟨commandWord op rd rs1 rs2 rd2, imm⟩ = decodeFields op 0 rd rs1 rs2 rd2 imm := by
  unfold decode
  simp only
  rw [opcodeField_commandWord h, reservedField_commandWord h, rdField_commandWord h, rs1Field_commandWord h,
    rs2Field_commandWord h, rd2Field_commandWord h]

theorem whenZero_ok {unused : List Reg} {i j : Instr} :
    whenZero unused i = .ok j ↔ (∀ r ∈ unused, r = 0) ∧ i = j := by
  unfold whenZero
  split
  · next h => simp at h; simpa using fun _ => h
  · next h =>
    obtain ⟨r, hr, h0⟩ : ∃ r ∈ unused, ¬ r = 0 := by simpa using h
    simpa using fun h' : ∀ r ∈ unused, r = 0 => absurd (h' r hr) h0

/-! ## Masks, nibble by nibble -/

/-- Bits 4k+3 : 4k of a word. -/
def nibble (w : Word) (k : Nat) : BitVec 4 := w.extractLsb' (4 * k) 4

theorem nibble_toNat (w : Word) (k : Nat) : (nibble w k).toNat = w.toNat / 2 ^ (4 * k) % 16 := by
  simp [nibble, Nat.shiftRight_eq_div_pow]

theorem word_ext_nibbles {w v : Word} (h : ∀ k < 8, nibble w k = nibble v k) : w = v := by
  apply BitVec.eq_of_toNat_eq
  have hw := w.isLt
  have hv := v.isLt
  have e : ∀ k < 8, w.toNat / 2 ^ (4 * k) % 16 = v.toNat / 2 ^ (4 * k) % 16 := fun k hk => by
    rw [← nibble_toNat, ← nibble_toNat, h k hk]
  have h0 := e 0 (by decide); have h1 := e 1 (by decide); have h2 := e 2 (by decide); have h3 := e 3 (by decide)
  have h4 := e 4 (by decide); have h5 := e 5 (by decide); have h6 := e 6 (by decide); have h7 := e 7 (by decide)
  simp only [Nat.reduceMul, Nat.reducePow] at h0 h1 h2 h3 h4 h5 h6 h7
  omega

theorem nibble_and (w m : Word) (k : Nat) : nibble (w &&& m) k = nibble w k &&& nibble m k := by
  simp [nibble, BitVec.extractLsb'_and]

/-- A row matches a word exactly when its masked nibbles are those of the row. -/
theorem OpcodeRow.matchesWord_iff (r : OpcodeRow) (w : Word) :
    r.matchesWord w = true ↔ ∀ k < 8, nibble w k &&& nibble r.mask k = nibble r.fixed k := by
  rw [OpcodeRow.matchesWord, beq_iff_eq]
  constructor
  · intro h k _; rw [← nibble_and, h]
  · intro h; exact word_ext_nibbles fun k hk => by rw [nibble_and, h k hk]

/-- The nibbles of an instruction word, from the top: two of the opcode, four register fields, two zeros. -/
theorem nibble_commandWord {op : Nat} (h : op < 256) (rd rs1 rs2 rd2 : Reg) :
    nibble (commandWord op rd rs1 rs2 rd2) 7 = BitVec.ofNat 4 (op / 16)
    ∧ nibble (commandWord op rd rs1 rs2 rd2) 6 = BitVec.ofNat 4 op
    ∧ nibble (commandWord op rd rs1 rs2 rd2) 5 = BitVec.ofNat 4 rd.val
    ∧ nibble (commandWord op rd rs1 rs2 rd2) 4 = BitVec.ofNat 4 rs1.val
    ∧ nibble (commandWord op rd rs1 rs2 rd2) 3 = BitVec.ofNat 4 rs2.val
    ∧ nibble (commandWord op rd rs1 rs2 rd2) 2 = BitVec.ofNat 4 rd2.val
    ∧ nibble (commandWord op rd rs1 rs2 rd2) 1 = 0
    ∧ nibble (commandWord op rd rs1 rs2 rd2) 0 = 0 := by
  have := rd.isLt; have := rs1.isLt; have := rs2.isLt; have := rd2.isLt
  refine ⟨?_, ?_, ?_, ?_, ?_, ?_, ?_, ?_⟩ <;>
  · apply BitVec.eq_of_toNat_eq
    rw [nibble_toNat, commandWord_toNat h]
    simp only [BitVec.toNat_ofNat, BitVec.ofNat_eq_ofNat]
    omega

end Sys2Proof
end

