-- ==== Sys2Proof/Laws/State.lean ====
section
/-! SUPPORT. One lemma per field per update of State, each true by unfolding, so that no later proof unfolds a record
update; and what a register read after a register write gives. -/

namespace Sys2Proof.Machine

/-! ## setReg -/

@[simp] theorem State.setReg_regs (s : State) (i : Reg) (m : Mpr) : (s.setReg i m).regs = s.regs.set i.val m := rfl
@[simp] theorem State.setReg_imm (s : State) (i : Reg) (m : Mpr) : (s.setReg i m).imm = s.imm := rfl
@[simp] theorem State.setReg_result (s : State) (i : Reg) (m : Mpr) : (s.setReg i m).result = s.result := rfl
@[simp] theorem State.setReg_fault (s : State) (i : Reg) (m : Mpr) : (s.setReg i m).fault = s.fault := rfl
@[simp] theorem State.setReg_fatal (s : State) (i : Reg) (m : Mpr) : (s.setReg i m).fatal = s.fatal := rfl
@[simp] theorem State.setReg_drop (s : State) (i : Reg) (m : Mpr) : (s.setReg i m).drop = s.drop := rfl
@[simp] theorem State.setReg_fcode (s : State) (i : Reg) (m : Mpr) : (s.setReg i m).fcode = s.fcode := rfl
@[simp] theorem State.setReg_fcmd (s : State) (i : Reg) (m : Mpr) : (s.setReg i m).fcmd = s.fcmd := rfl
@[simp] theorem State.setReg_fimm (s : State) (i : Reg) (m : Mpr) : (s.setReg i m).fimm = s.fimm := rfl
@[simp] theorem State.setReg_pending (s : State) (i : Reg) (m : Mpr) : (s.setReg i m).pending = s.pending := rfl
@[simp] theorem State.setReg_config (s : State) (i : Reg) (m : Mpr) : (s.setReg i m).config = s.config := rfl
@[simp] theorem State.setReg_schedule (s : State) (i : Reg) (m : Mpr) : (s.setReg i m).schedule = s.schedule := rfl
@[simp] theorem State.setReg_reads (s : State) (i : Reg) (m : Mpr) : (s.setReg i m).reads = s.reads := rfl
@[simp] theorem State.setReg_maxDigits (s : State) (i : Reg) (m : Mpr) : (s.setReg i m).maxDigits = s.maxDigits := rfl

/-! ## setResult -/

@[simp] theorem State.setResult_regs (s : State) (w : Word) : (s.setResult w).regs = s.regs := rfl
@[simp] theorem State.setResult_imm (s : State) (w : Word) : (s.setResult w).imm = s.imm := rfl
@[simp] theorem State.setResult_result (s : State) (w : Word) : (s.setResult w).result = w := rfl
@[simp] theorem State.setResult_fault (s : State) (w : Word) : (s.setResult w).fault = s.fault := rfl
@[simp] theorem State.setResult_fatal (s : State) (w : Word) : (s.setResult w).fatal = s.fatal := rfl
@[simp] theorem State.setResult_drop (s : State) (w : Word) : (s.setResult w).drop = s.drop := rfl
@[simp] theorem State.setResult_fcode (s : State) (w : Word) : (s.setResult w).fcode = s.fcode := rfl
@[simp] theorem State.setResult_fcmd (s : State) (w : Word) : (s.setResult w).fcmd = s.fcmd := rfl
@[simp] theorem State.setResult_fimm (s : State) (w : Word) : (s.setResult w).fimm = s.fimm := rfl
@[simp] theorem State.setResult_pending (s : State) (w : Word) : (s.setResult w).pending = s.pending := rfl
@[simp] theorem State.setResult_config (s : State) (w : Word) : (s.setResult w).config = s.config := rfl
@[simp] theorem State.setResult_schedule (s : State) (w : Word) : (s.setResult w).schedule = s.schedule := rfl
@[simp] theorem State.setResult_reads (s : State) (w : Word) : (s.setResult w).reads = s.reads := rfl
@[simp] theorem State.setResult_maxDigits (s : State) (w : Word) : (s.setResult w).maxDigits = s.maxDigits := rfl

/-! ## complete -/

@[simp] theorem State.complete_regs (s : State) : (s.complete).regs = s.regs := rfl
@[simp] theorem State.complete_imm (s : State) : (s.complete).imm = s.imm := rfl
@[simp] theorem State.complete_result (s : State) : (s.complete).result = s.result := rfl
@[simp] theorem State.complete_fault (s : State) : (s.complete).fault = s.fault := rfl
@[simp] theorem State.complete_fatal (s : State) : (s.complete).fatal = s.fatal := rfl
@[simp] theorem State.complete_drop (s : State) : (s.complete).drop = s.drop := rfl
@[simp] theorem State.complete_fcode (s : State) : (s.complete).fcode = s.fcode := rfl
@[simp] theorem State.complete_fcmd (s : State) : (s.complete).fcmd = s.fcmd := rfl
@[simp] theorem State.complete_fimm (s : State) : (s.complete).fimm = s.fimm := rfl
@[simp] theorem State.complete_pending (s : State) : (s.complete).pending = none := rfl
@[simp] theorem State.complete_config (s : State) : (s.complete).config = s.config := rfl
@[simp] theorem State.complete_schedule (s : State) : (s.complete).schedule = s.schedule := rfl
@[simp] theorem State.complete_reads (s : State) : (s.complete).reads = s.reads := rfl
@[simp] theorem State.complete_maxDigits (s : State) : (s.complete).maxDigits = s.maxDigits := rfl

/-! ## latch -/

@[simp] theorem State.latch_regs (s : State) (c : Command) : (s.latch c).regs = s.regs := rfl
@[simp] theorem State.latch_imm (s : State) (c : Command) : (s.latch c).imm = s.imm := rfl
@[simp] theorem State.latch_result (s : State) (c : Command) : (s.latch c).result = s.result := rfl
@[simp] theorem State.latch_fault (s : State) (c : Command) : (s.latch c).fault = s.fault := rfl
@[simp] theorem State.latch_fatal (s : State) (c : Command) : (s.latch c).fatal = s.fatal := rfl
@[simp] theorem State.latch_drop (s : State) (c : Command) : (s.latch c).drop = s.drop := rfl
@[simp] theorem State.latch_fcode (s : State) (c : Command) : (s.latch c).fcode = s.fcode := rfl
@[simp] theorem State.latch_fcmd (s : State) (c : Command) : (s.latch c).fcmd = s.fcmd := rfl
@[simp] theorem State.latch_fimm (s : State) (c : Command) : (s.latch c).fimm = s.fimm := rfl
@[simp] theorem State.latch_pending (s : State) (c : Command) : (s.latch c).pending = some c := rfl
@[simp] theorem State.latch_config (s : State) (c : Command) : (s.latch c).config = s.config := rfl
@[simp] theorem State.latch_schedule (s : State) (c : Command) : (s.latch c).schedule = s.schedule := rfl
@[simp] theorem State.latch_reads (s : State) (c : Command) : (s.latch c).reads = s.reads := rfl
@[simp] theorem State.latch_maxDigits (s : State) (c : Command) : (s.latch c).maxDigits = s.maxDigits := rfl

/-! ## takeFault -/

@[simp] theorem State.takeFault_regs (s : State) (code : FaultCode) : (s.takeFault code).regs = s.regs := rfl
@[simp] theorem State.takeFault_imm (s : State) (code : FaultCode) : (s.takeFault code).imm = s.imm := rfl
@[simp] theorem State.takeFault_result (s : State) (code : FaultCode) : (s.takeFault code).result = s.result := rfl
@[simp] theorem State.takeFault_fault (s : State) (code : FaultCode) : (s.takeFault code).fault = true := rfl
@[simp] theorem State.takeFault_fatal (s : State) (code : FaultCode) : (s.takeFault code).fatal = (code == .capacity) := rfl
@[simp] theorem State.takeFault_drop (s : State) (code : FaultCode) : (s.takeFault code).drop = s.drop := rfl
@[simp] theorem State.takeFault_fcode (s : State) (code : FaultCode) : (s.takeFault code).fcode = code.code := rfl
@[simp] theorem State.takeFault_fcmd (s : State) (code : FaultCode) : (s.takeFault code).fcmd = (s.pending.map Command.word).getD s.fcmd := rfl
@[simp] theorem State.takeFault_fimm (s : State) (code : FaultCode) : (s.takeFault code).fimm = (s.pending.map Command.imm).getD s.fimm := rfl
@[simp] theorem State.takeFault_pending (s : State) (code : FaultCode) : (s.takeFault code).pending = none := rfl
@[simp] theorem State.takeFault_config (s : State) (code : FaultCode) : (s.takeFault code).config = s.config := rfl
@[simp] theorem State.takeFault_schedule (s : State) (code : FaultCode) : (s.takeFault code).schedule = s.schedule := rfl
@[simp] theorem State.takeFault_reads (s : State) (code : FaultCode) : (s.takeFault code).reads = s.reads := rfl
@[simp] theorem State.takeFault_maxDigits (s : State) (code : FaultCode) : (s.takeFault code).maxDigits = s.maxDigits := rfl

/-! ## resetCore -/

@[simp] theorem State.resetCore_regs (s : State) : (s.resetCore).regs = Vector.replicate 16 Mpr.empty := rfl
@[simp] theorem State.resetCore_imm (s : State) : (s.resetCore).imm = 0 := rfl
@[simp] theorem State.resetCore_result (s : State) : (s.resetCore).result = 0 := rfl
@[simp] theorem State.resetCore_fault (s : State) : (s.resetCore).fault = false := rfl
@[simp] theorem State.resetCore_fatal (s : State) : (s.resetCore).fatal = false := rfl
@[simp] theorem State.resetCore_drop (s : State) : (s.resetCore).drop = false := rfl
@[simp] theorem State.resetCore_fcode (s : State) : (s.resetCore).fcode = 0 := rfl
@[simp] theorem State.resetCore_fcmd (s : State) : (s.resetCore).fcmd = 0 := rfl
@[simp] theorem State.resetCore_fimm (s : State) : (s.resetCore).fimm = 0 := rfl
@[simp] theorem State.resetCore_pending (s : State) : (s.resetCore).pending = none := rfl
@[simp] theorem State.resetCore_config (s : State) : (s.resetCore).config = s.config := rfl
@[simp] theorem State.resetCore_schedule (s : State) : (s.resetCore).schedule = s.schedule := rfl
@[simp] theorem State.resetCore_reads (s : State) : (s.resetCore).reads = s.reads := rfl
@[simp] theorem State.resetCore_maxDigits (s : State) : (s.resetCore).maxDigits = s.maxDigits := rfl

/-! ## Registers -/

theorem State.reg_setReg (s : State) (i j : Reg) (m : Mpr) : (s.setReg i m).reg j = if j = i then m else s.reg j := by
  simp only [State.reg, State.setReg_regs, Vector.getElem_set]
  split <;> split <;> simp_all [Fin.ext_iff]

@[simp] theorem State.reg_setReg_self (s : State) (i : Reg) (m : Mpr) : (s.setReg i m).reg i = m := by
  simp [State.reg_setReg]

theorem State.reg_setReg_ne (s : State) {i j : Reg} (h : j ≠ i) (m : Mpr) : (s.setReg i m).reg j = s.reg j := by
  simp [State.reg_setReg, h]

@[simp] theorem State.reg_setResult (s : State) (w : Word) (i : Reg) : (s.setResult w).reg i = s.reg i := rfl
@[simp] theorem State.reg_complete (s : State) (i : Reg) : s.complete.reg i = s.reg i := rfl
@[simp] theorem State.reg_latch (s : State) (c : Command) (i : Reg) : (s.latch c).reg i = s.reg i := rfl
@[simp] theorem State.reg_takeFault (s : State) (c : FaultCode) (i : Reg) : (s.takeFault c).reg i = s.reg i := rfl

@[simp] theorem State.reg_resetCore (s : State) (i : Reg) : s.resetCore.reg i = Mpr.empty := by
  simp [State.reg]

@[simp] theorem State.reg_resetWith (c : Config) (es : List Event) (ws : List Word) (i : Reg) :
    (State.resetWith c es ws).reg i = Mpr.empty := by
  simp [State.reg, State.resetWith]

theorem State.val_setReg (s : State) (i j : Reg) (m : Mpr) : (s.setReg i m).val j = if j = i then m.val else s.val j := by
  unfold State.val; rw [State.reg_setReg]; split <;> rfl

theorem State.cap_setReg (s : State) (i j : Reg) (m : Mpr) : (s.setReg i m).cap j = if j = i then m.cap else s.cap j := by
  unfold State.cap; rw [State.reg_setReg]; split <;> rfl

end Sys2Proof.Machine
end

