-- ==== Sys2Proof/Laws/Serial.lean ====
section
/-! SUPPORT. What each digit-serial or bit-serial algorithm of Machine/Serial.lean computes: one law per algorithm, the
equality the spec's rule states after its pseudocode. -/

namespace Sys2Proof.Machine

/-! ## ADDW and MULW (43_word_arith.md R152, R153) -/

theorem digitsValue_escapedCarry (c : Nat) : digitsValue (escapedCarry c) = c :=
  digitsValue_digitsOf (lt_radix_pow_len c)

theorem digitsValue_addChain (ds : List Nat) (c : Nat) : digitsValue (addChain ds c) = digitsValue ds + c := by
  induction ds generalizing c with
  | nil => simp [addChain, digitsValue_escapedCarry]
  | cons d ds ih =>
    simp only [addChain, digitsValue_cons, ih]
    have := Nat.mod_add_div (d + c) radix
    rw [Nat.mul_add]
    omega

theorem digitsValue_mulChain (w : Nat) (ds : List Nat) (c : Nat) :
    digitsValue (mulChain w ds c) = digitsValue ds * w + c := by
  induction ds generalizing c with
  | nil => simp [mulChain, digitsValue_escapedCarry]
  | cons d ds ih =>
    simp only [mulChain, digitsValue_cons, ih]
    have := Nat.mod_add_div (d * w + c) radix
    rw [Nat.mul_add, Nat.add_mul, Nat.mul_assoc]
    omega

/-! ## CMP and CMPW (44_mp_arith.md R173, 42_conversions.md R132) -/

/-- The value of the n lowest digits of a digit function. -/
def lowValue (x : Nat → Nat) : Nat → Nat
  | 0 => 0
  | n + 1 => lowValue x n + radix ^ n * x n

theorem lowValue_lt {x : Nat → Nat} (h : ∀ j, x j < radix) (n : Nat) : lowValue x n < radix ^ n := by
  induction n with
  | zero => simp [lowValue]
  | succ n ih =>
    have hn := h n
    rw [lowValue, pow_succ]
    nlinarith [radix_pow_pos n]

theorem lowValue_digits (v n : Nat) : lowValue (fun j => v / radix ^ j % radix) n = v % radix ^ n := by
  induction n with
  | zero => simp [lowValue, Nat.mod_one]
  | succ n ih => rw [lowValue, ih, pow_succ, Nat.mod_mul]

theorem cmp3_lt {a b : Nat} (h : a < b) : cmp3 a b = .lt := by simp [cmp3, h]

theorem cmp3_gt {a b : Nat} (h : b < a) : cmp3 a b = .gt := by
  simp [cmp3, not_lt.2 h.le, h.ne']

theorem cmp3_add_left (a b c : Nat) : cmp3 (a + c) (b + c) = cmp3 a b := by simp [cmp3]

/-- The comparison from the top digit down compares the values. -/
theorem compareDown_eq_cmp3 {x y : Nat → Nat} (hx : ∀ j, x j < radix) (hy : ∀ j, y j < radix) (n : Nat) :
    compareDown x y n = cmp3 (lowValue x n) (lowValue y n) := by
  induction n with
  | zero => rfl
  | succ n ih =>
    have lx := lowValue_lt hx n
    have ly := lowValue_lt hy n
    rw [compareDown, lowValue, lowValue]
    rcases lt_trichotomy (x n) (y n) with h | h | h
    · have : radix ^ n * (x n + 1) ≤ radix ^ n * y n := Nat.mul_le_mul_left _ h
      rw [if_neg (by omega), if_pos h, cmp3_lt (by rw [Nat.mul_add] at this; omega)]
    · rw [if_neg (by omega), if_neg (by omega), ih, h, cmp3_add_left]
    · have : radix ^ n * (y n + 1) ≤ radix ^ n * x n := Nat.mul_le_mul_left _ h
      rw [if_pos h, cmp3_gt (by rw [Nat.mul_add] at this; omega)]

theorem Mpr.Fits.lowValue_digit {k : Nat} {m : Mpr} (h : m.Fits k) {n : Nat} (hn : m.cap ≤ n) :
    lowValue m.digit n = m.val := by
  rw [show m.digit = fun j => m.val / radix ^ j % radix from funext h.digit_eq, lowValue_digits]
  exact Nat.mod_eq_of_lt (lt_of_lt_of_le h.val_lt (Nat.pow_le_pow_right (by decide) hn))

theorem compareDown_val {k : Nat} {a b : Mpr} (ha : a.Fits k) (hb : b.Fits k) :
    compareDown a.digit b.digit (max a.cap b.cap) = cmp3 a.val b.val := by
  rw [compareDown_eq_cmp3 ha.digit_lt' hb.digit_lt', ha.lowValue_digit (le_max_left _ _),
    hb.lowValue_digit (le_max_right _ _)]

theorem wordDigit_eq {w : Nat} (h : w < 2 ^ 32) (j : Nat) : wordDigit w j = w / radix ^ j % radix := by
  match j with
  | 0 => simp [wordDigit]
  | 1 =>
    simp only [wordDigit, pow_one]
    rw [Nat.mod_eq_of_lt]
    simp only [radix]; omega
  | j + 2 =>
    rw [wordDigit, Nat.div_eq_of_lt, Nat.zero_mod]
    refine lt_of_lt_of_le (b := radix ^ 2) (by simp only [radix]; omega) (Nat.pow_le_pow_right (by decide) (by omega))

theorem compareDown_word {k : Nat} {a : Mpr} (ha : a.Fits k) (w : Word) :
    compareDown a.digit (wordDigit w.toNat) (max a.cap 2) = cmp3 a.val w.toNat := by
  have hw : wordDigit w.toNat = fun j => w.toNat / radix ^ j % radix := funext (wordDigit_eq w.isLt)
  have hlt : ∀ j, wordDigit w.toNat j < radix := fun j => by rw [hw]; exact Nat.mod_lt _ (by decide)
  rw [compareDown_eq_cmp3 ha.digit_lt' hlt, ha.lowValue_digit (le_max_left _ _), hw, lowValue_digits,
    Nat.mod_eq_of_lt (lt_of_lt_of_le (len_le_iff.1 (len_word w)) (Nat.pow_le_pow_right (by decide) (le_max_right _ _)))]

/-! ## SUB (44_mp_arith.md R172) -/

/-- The borrow chain subtracts, up to one borrow of weight radix^n. -/
theorem borrowChain_value (ps : List (Nat × Nat)) (b : Nat) (hb : b ≤ 1) (h : ∀ p ∈ ps, p.1 < radix ∧ p.2 < radix) :
    digitsValue (borrowChain ps b).1 + digitsValue (ps.map Prod.snd) + b
      = digitsValue (ps.map Prod.fst) + radix ^ ps.length * (borrowChain ps b).2
    ∧ (borrowChain ps b).2 ≤ 1 ∧ (∀ d ∈ (borrowChain ps b).1, d < radix)
    ∧ (borrowChain ps b).1.length = ps.length := by
  induction ps generalizing b with
  | nil => simp [borrowChain, hb]
  | cons p ps ih =>
    obtain ⟨x, y⟩ := p
    have hp := h (x, y) (by simp)
    have ht : ∀ p ∈ ps, p.1 < radix ∧ p.2 < radix := fun q hq => h q (by simp [hq])
    rw [borrowChain]
    split
    · next hle =>
      obtain ⟨h1, h2, h3, h4⟩ := ih 0 (by omega) ht
      refine ⟨?_, h2, ?_, by simpa using h4⟩
      · simp only [digitsValue_cons, List.map_cons, List.length_cons, pow_succ]
        have := congrArg (radix * ·) h1
        simp only [Nat.mul_add] at this
        have e : radix * (radix ^ ps.length * (borrowChain ps 0).2) = radix ^ ps.length * radix * (borrowChain ps 0).2 := by
          ring
        omega
      · intro d hd
        rcases List.mem_cons.1 hd with rfl | hd
        · simp only at hp; omega
        · exact h3 d hd
    · next hlt =>
      obtain ⟨h1, h2, h3, h4⟩ := ih 1 (by omega) ht
      refine ⟨?_, h2, ?_, by simpa using h4⟩
      · simp only [digitsValue_cons, List.map_cons, List.length_cons, pow_succ]
        have := congrArg (radix * ·) h1
        simp only [Nat.mul_add] at this
        have e : radix * (radix ^ ps.length * (borrowChain ps 1).2) = radix ^ ps.length * radix * (borrowChain ps 1).2 := by
          ring
        simp only at hp
        omega
      · intro d hd
        rcases List.mem_cons.1 hd with rfl | hd
        · simp only at hp; omega
        · exact h3 d hd

theorem digitsValue_map_range (x : Nat → Nat) (n : Nat) : digitsValue ((List.range n).map x) = lowValue x n := by
  induction n with
  | zero => rfl
  | succ n ih => simp [List.range_succ, digitsValue_append, ih, lowValue]

/-- SUB's chain: the borrow escapes exactly when the difference would be negative, and otherwise the digits are those of
the difference. -/
theorem borrowChain_sub {k : Nat} {a b : Mpr} (ha : a.Fits k) (hb : b.Fits k) :
    ((borrowChain (digitPairs a b (max a.cap b.cap)) 0).2 = 1 ↔ a.val < b.val)
    ∧ (b.val ≤ a.val → digitsValue (borrowChain (digitPairs a b (max a.cap b.cap)) 0).1 = a.val - b.val) := by
  set n := max a.cap b.cap with hn
  set ps := digitPairs a b n with hps
  have hlen : ps.length = n := by simp [hps, digitPairs]
  have hfst : digitsValue (ps.map Prod.fst) = a.val := by
    rw [hps, digitPairs, List.map_map]
    exact (digitsValue_map_range a.digit n).trans (ha.lowValue_digit (le_max_left _ _))
  have hsnd : digitsValue (ps.map Prod.snd) = b.val := by
    rw [hps, digitPairs, List.map_map]
    exact (digitsValue_map_range b.digit n).trans (hb.lowValue_digit (le_max_right _ _))
  obtain ⟨h1, h2, h3, h4⟩ := borrowChain_value ps 0 (by omega) fun p hp => by
    simp only [hps, digitPairs, List.mem_map] at hp
    obtain ⟨j, -, rfl⟩ := hp
    exact ⟨ha.digit_lt' j, hb.digit_lt' j⟩
  have hlt := digitsValue_lt h3
  rw [h4, hlen] at hlt
  rw [hfst, hsnd, hlen] at h1
  have hav : a.val < radix ^ n := lt_of_lt_of_le ha.val_lt (Nat.pow_le_pow_right (by decide) (le_max_left _ _))
  rcases Nat.le_one_iff_eq_zero_or_eq_one.1 h2 with h | h <;> rw [h] at h1 ⊢
  · constructor
    · constructor
      · intro; omega
      · intro; omega
    · intro; omega
  · constructor
    · constructor
      · intro; omega
      · intro; rfl
    · intro; omega

/-! ## MUL (44_mp_arith.md R171) -/

theorem length_ripple (acc : List Nat) (k c : Nat) : (ripple acc k c).length = acc.length := by
  induction acc generalizing k c with
  | nil => rfl
  | cons a acc ih =>
    cases k with
    | zero => rw [ripple]; split <;> simp [ih]
    | succ k => simp [ripple, ih]

theorem ripple_lt {acc : List Nat} (h : ∀ d ∈ acc, d < radix) (k c : Nat) : ∀ d ∈ ripple acc k c, d < radix := by
  induction acc generalizing k c with
  | nil => simp [ripple]
  | cons a acc ih =>
    have ha := h a (by simp)
    have ht : ∀ d ∈ acc, d < radix := fun d hd => h d (by simp [hd])
    cases k with
    | zero =>
      rw [ripple]
      split
      · exact h
      · intro d hd
        rcases List.mem_cons.1 hd with rfl | hd
        · exact Nat.mod_lt _ (by decide)
        · exact ih ht _ _ d hd
    | succ k =>
      intro d hd
      rcases List.mem_cons.1 hd with rfl | hd
      · exact ha
      · exact ih ht _ _ d hd

/-- The ripple adds c at position k; where the sum fits in the accumulator no carry is lost. -/
theorem ripple_value {acc : List Nat} (k c : Nat)
    (hfit : digitsValue acc + c * radix ^ k < radix ^ acc.length) :
    digitsValue (ripple acc k c) = digitsValue acc + c * radix ^ k := by
  induction acc generalizing k c with
  | nil =>
    simp only [digitsValue_nil, List.length_nil, pow_zero] at hfit
    simp only [ripple, digitsValue_nil]
    omega
  | cons a acc ih =>
    cases k with
    | zero =>
      rw [ripple]
      split
      · next h => simp [h]
      · simp only [pow_zero, mul_one, digitsValue_cons, List.length_cons, pow_succ] at hfit ⊢
        have hdm := Nat.mod_add_div (a + c) radix
        have hr : digitsValue acc + (a + c) / radix * radix ^ 0 < radix ^ acc.length := by
          rw [pow_zero, mul_one]
          refine Nat.lt_of_mul_lt_mul_left (a := radix) ?_
          rw [Nat.mul_add, Nat.mul_comm radix (radix ^ acc.length)]
          omega
        rw [ih 0 _ hr, pow_zero, mul_one, Nat.mul_add]
        omega
    | succ k =>
      simp only [digitsValue_cons, List.length_cons, pow_succ, ripple] at hfit ⊢
      have e : c * (radix ^ k * radix) = radix * (c * radix ^ k) := by ring
      rw [e] at hfit ⊢
      have hr : digitsValue acc + c * radix ^ k < radix ^ acc.length := by
        refine Nat.lt_of_mul_lt_mul_left (a := radix) ?_
        rw [Nat.mul_add, Nat.mul_comm radix (radix ^ acc.length)]
        omega
      rw [ih k c hr, Nat.mul_add]
      omega

/-- One row of the product adds digit i times the n lowest digits of the second factor, at position i. -/
theorem mulRow_value (a b : Mpr) (i n : Nat) (acc : List Nat)
    (hfit : digitsValue acc + a.digit i * lowValue b.digit n * radix ^ i < radix ^ acc.length) :
    digitsValue (mulRow a b i n acc) = digitsValue acc + a.digit i * lowValue b.digit n * radix ^ i
    ∧ (mulRow a b i n acc).length = acc.length := by
  induction n with
  | zero => simp [mulRow, lowValue]
  | succ n ih =>
    have e : a.digit i * lowValue b.digit (n + 1) * radix ^ i
        = a.digit i * lowValue b.digit n * radix ^ i + a.digit i * b.digit n * radix ^ (i + n) := by
      rw [lowValue, pow_add]; ring
    rw [e] at hfit ⊢
    obtain ⟨hv, hl⟩ := ih (by omega)
    have hstep : mulRow a b i (n + 1) acc = ripple (mulRow a b i n acc) (i + n) (a.digit i * b.digit n) := by
      simp [mulRow, List.range_succ]
    rw [hstep]
    refine ⟨?_, by rw [length_ripple, hl]⟩
    rw [ripple_value _ _ (by rw [hv, hl]; omega), hv]
    omega

theorem mulNaive_value {k : Nat} {a b : Mpr} (ha : a.Fits k) (hb : b.Fits k) :
    digitsValue (mulNaive a b) = a.val * b.val := by
  have hB : lowValue b.digit b.cap = b.val := hb.lowValue_digit le_rfl
  have hA : lowValue a.digit a.cap = a.val := ha.lowValue_digit le_rfl
  have hbound : a.val * b.val < radix ^ (a.cap + b.cap) := by
    rw [pow_add]; exact Nat.mul_lt_mul'' ha.val_lt hb.val_lt
  have main : ∀ n, lowValue a.digit n * b.val < radix ^ (a.cap + b.cap) →
      digitsValue ((List.range n).foldl (fun acc i => mulRow a b i b.cap acc) (List.replicate (a.cap + b.cap) 0))
        = lowValue a.digit n * b.val
      ∧ ((List.range n).foldl (fun acc i => mulRow a b i b.cap acc) (List.replicate (a.cap + b.cap) 0)).length
        = a.cap + b.cap := by
    intro n
    induction n with
    | zero => simp [lowValue, digitsValue_replicate_zero]
    | succ n ih =>
      intro hn
      have e : lowValue a.digit (n + 1) * b.val
          = lowValue a.digit n * b.val + a.digit n * lowValue b.digit b.cap * radix ^ n := by
        rw [lowValue, hB]; ring
      rw [e] at hn ⊢
      obtain ⟨hv, hl⟩ := ih (by omega)
      rw [List.range_succ, List.foldl_append, List.foldl_cons, List.foldl_nil]
      have := mulRow_value a b n b.cap _ (by rw [hv, hl]; exact hn)
      rw [hv, hl] at this
      exact this
  have := (main a.cap (by rw [hA]; exact hbound)).1
  rwa [hA] at this

/-! ## SHL (45_bit_ops.md R193) -/

theorem shiftedLen_eq (v n : Nat) : shiftedLen v n = len (v * 2 ^ n) := by
  unfold shiftedLen len
  by_cases h : v = 0
  · simp [h]
  · have : v * 2 ^ n ≠ 0 := by positivity
    rw [if_neg h, if_neg this]
    congr 2
    rw [eq_comm, Nat.log2_eq_iff this]
    have h1 := Nat.log2_self_le h
    have h2 := Nat.lt_log2_self (n := v)
    constructor
    · rw [pow_add]; exact Nat.mul_le_mul_right _ h1
    · rw [show v.log2 + n + 1 = v.log2 + 1 + n by ring, pow_add]
      exact Nat.mul_lt_mul_of_pos_right h2 (by positivity)

/-- The part of digit k's shifted value that goes into the next position. -/
def shlCarry (x : Nat → Nat) (bs : Nat) : Nat → Nat
  | 0 => 0
  | k + 1 => x k * 2 ^ bs / radix

/-- One assembled digit is the low part of its own source digit and the carry of the one below. -/
theorem shlDigit_eq {k : Nat} {m : Mpr} (hm : m.Fits k) (ws : Nat) {bs : Nat} (hbs : bs < 31) (t : Nat) :
    shlDigit m ws bs (ws + t) = m.digit t * 2 ^ bs % radix + shlCarry m.digit bs t := by
  have hhi : (if ws + t < ws + 1 then 0 else m.digit (ws + t - ws - 1)) >>> (31 - bs) = shlCarry m.digit bs t := by
    cases t with
    | zero => simp [shlCarry]
    | succ t =>
      rw [if_neg (by omega), show ws + (t + 1) - ws - 1 = t by omega, shlCarry, Nat.shiftRight_eq_div_pow,
        show radix = 2 ^ (31 - bs) * 2 ^ bs from by rw [radix_eq, ← pow_add, show 31 - bs + bs = 31 by omega],
        Nat.mul_div_mul_right _ _ (by positivity)]
  have hcarry : shlCarry m.digit bs t < 2 ^ bs := by
    cases t with
    | zero => simp [shlCarry]
    | succ t =>
      refine Nat.div_lt_of_lt_mul ?_
      exact Nat.mul_lt_mul_of_pos_right (hm.digit_lt' t) (by positivity)
  have hlo : (m.digit t <<< bs) % radix = 2 ^ bs * (m.digit t % 2 ^ (31 - bs)) := by
    rw [Nat.shiftLeft_eq, Nat.mul_comm,
      show radix = 2 ^ bs * 2 ^ (31 - bs) from by rw [radix_eq, ← pow_add, show bs + (31 - bs) = 31 by omega], Nat.mul_mod_mul_left]
  unfold shlDigit
  simp only
  rw [if_neg (by omega : ¬ ws + t < ws), show ws + t - ws = t by omega, ← Nat.shiftLeft_eq, hlo,
    Nat.two_pow_add_eq_or_of_lt hcarry, ← hhi, show ws + t - ws - 1 = t - 1 by omega]

theorem shlDigit_low (m : Mpr) {ws i : Nat} (bs : Nat) (h : i < ws) : shlDigit m ws bs i = 0 := by
  simp [shlDigit, h, Nat.lt_succ_of_lt h]

theorem lowValue_zero {x : Nat → Nat} {n : Nat} (h : ∀ i < n, x i = 0) : lowValue x n = 0 := by
  induction n with
  | zero => rfl
  | succ n ih => simp [lowValue, ih fun i hi => h i (by omega), h n (by omega)]

theorem shlDigits_partial {k : Nat} {m : Mpr} (hm : m.Fits k) (ws : Nat) {bs : Nat} (hbs : bs < 31) (t : Nat) :
    lowValue (shlDigit m ws bs) (ws + t) + radix ^ (ws + t) * shlCarry m.digit bs t
      = lowValue m.digit t * 2 ^ bs * radix ^ ws := by
  induction t with
  | zero => simp [lowValue_zero fun i hi => shlDigit_low m bs hi, shlCarry, lowValue]
  | succ t ih =>
    rw [← Nat.add_assoc, lowValue, lowValue, shlDigit_eq hm ws hbs, shlCarry]
    have hdm := Nat.mod_add_div (m.digit t * 2 ^ bs) radix
    calc _ = (lowValue (shlDigit m ws bs) (ws + t) + radix ^ (ws + t) * shlCarry m.digit bs t)
          + radix ^ (ws + t) * (m.digit t * 2 ^ bs % radix + radix * (m.digit t * 2 ^ bs / radix)) := by
            rw [pow_succ]; ring
      _ = _ := by rw [ih, hdm, pow_add]; ring

/-- SHL's two-digit assembly multiplies by 2^count. -/
theorem shlDigits_value {k : Nat} {m : Mpr} (hm : m.Fits k) (count : Nat) :
    digitsValue (shlDigits m count) = m.val * 2 ^ count := by
  have hp := shlDigits_partial hm (count / 31) (Nat.mod_lt count (by decide)) (m.cap + 1)
  rw [show count / 31 + (m.cap + 1) = m.cap + count / 31 + 1 by ring, shlCarry,
    Mpr.digit_of_cap_le (le_refl m.cap), hm.lowValue_digit (Nat.le_succ _), radix_pow (count / 31)] at hp
  rw [shlDigits, digitsValue_map_range]
  simp only [Nat.zero_mul, Nat.zero_div, Nat.mul_zero, Nat.add_zero] at hp
  rw [hp, mul_assoc, ← pow_add, Nat.mod_add_div]

/-! ## TESTBIT and SETBIT (45_bit_ops.md R191, R192) -/

theorem digit_bit {k : Nat} {m : Mpr} (hm : m.Fits k) (i : Nat) :
    (m.digit (i / 31) >>> (i % 31)) % 2 = m.val / 2 ^ i % 2 := by
  have hb : i % 31 < 31 := Nat.mod_lt _ (by decide)
  rw [hm.digit_eq, Nat.shiftRight_eq_div_pow, radix_pow,
    show radix = 2 ^ (i % 31) * 2 ^ (31 - i % 31) from by rw [radix_eq, ← pow_add, show i % 31 + (31 - i % 31) = 31 by omega],
    Nat.mod_mul_right_div_self, Nat.div_div_eq_div_mul, ← pow_add, Nat.div_add_mod,
    Nat.mod_mod_of_dvd _ (dvd_pow_self 2 (by omega))]

theorem len_setBit {v c i : Nat} (h : v < radix ^ c) : len (v ||| 1 <<< i) ≤ max c (i / 31 + 1) := by
  rw [len_le_iff, radix_pow]
  rw [radix_pow] at h
  refine Nat.or_lt_two_pow (lt_of_lt_of_le h (Nat.pow_le_pow_right (by decide) ?_)) ?_
  · exact Nat.mul_le_mul_left _ (le_max_left _ _)
  · rw [Nat.one_shiftLeft]
    refine Nat.pow_lt_pow_right (by decide) ?_
    have := le_max_right c (i / 31 + 1)
    omega

/-! ## DIVMOD and GCD (46_division.md R211, R213) -/

theorem longDivision_partial {a b : Nat} (i c r : Nat) (hr : r < b) (h : a / 2 ^ i = c * b + r) :
    longDivision a b i (c * 2 ^ i) r = (a / b, a % b) := by
  induction i generalizing c r with
  | zero =>
    simp only [pow_zero, Nat.div_one] at h
    have hb : 0 < b := by omega
    rw [longDivision, h, Nat.mul_comm c b, Nat.mul_add_div hb, Nat.mul_add_mod, Nat.div_eq_of_lt hr, Nat.mod_eq_of_lt hr]
    simp
  | succ i ih =>
    have hbit : a / 2 ^ i = 2 * (a / 2 ^ (i + 1)) + a / 2 ^ i % 2 := by
      rw [pow_succ, ← Nat.div_div_eq_div_mul, Nat.div_add_mod]
    have hr' : r <<< 1 ||| (a >>> i) % 2 = 2 * r + a / 2 ^ i % 2 := by
      rw [Nat.shiftLeft_eq, Nat.shiftRight_eq_div_pow, Nat.mul_comm r]
      exact (Nat.two_pow_add_eq_or_of_lt (i := 1) (Nat.mod_lt _ (by decide)) r).symm
    have hlt : a / 2 ^ i % 2 < 2 := Nat.mod_lt _ (by decide)
    rw [longDivision]
    simp only [hr']
    rw [h] at hbit
    split
    · next hle =>
      have hq : c * 2 ^ (i + 1) ||| 1 <<< i = (2 * c + 1) * 2 ^ i := by
        have := Nat.two_pow_add_eq_or_of_lt (i := i + 1) (b := 2 ^ i) (Nat.pow_lt_pow_right (by decide) (by omega)) c
        rw [Nat.one_shiftLeft, Nat.mul_comm c, ← this]
        ring
      rw [hq]
      refine ih (2 * c + 1) _ (by omega) ?_
      have e : (2 * c + 1) * b = 2 * (c * b) + b := by ring
      omega
    · next hgt =>
      rw [show c * 2 ^ (i + 1) = 2 * c * 2 ^ i by ring]
      refine ih (2 * c) _ (by omega) ?_
      have e : 2 * c * b = 2 * (c * b) := by ring
      omega

/-- DIVMOD's loop computes quotient and remainder. -/
theorem longDivision_eq {a b n : Nat} (hb : 0 < b) (ha : a < 2 ^ n) : longDivision a b n 0 0 = (a / b, a % b) := by
  have := longDivision_partial (a := a) (b := b) n 0 0 hb (by rw [Nat.div_eq_of_lt ha]; simp)
  simpa using this

theorem longDivision_val {k : Nat} {m : Mpr} (hm : m.Fits k) {b : Nat} (hb : 0 < b) :
    longDivision m.val b (31 * m.cap) 0 0 = (m.val / b, m.val % b) :=
  longDivision_eq hb (by rw [← radix_pow]; exact hm.val_lt)

/-- Euclid's loop computes the greatest common divisor, given more iterations than y. -/
theorem euclid_eq_gcd (fuel x y : Nat) (h : y < fuel) : euclid fuel x y = Nat.gcd x y := by
  induction fuel generalizing x y with
  | zero => omega
  | succ fuel ih =>
    rw [euclid]
    split
    · next hy => simp [hy]
    · next hy =>
      have hlt := Nat.mod_lt x (Nat.pos_of_ne_zero hy)
      rw [ih _ _ (by omega), Nat.gcd_comm x y, Nat.gcd_rec y x, Nat.gcd_comm]

end Sys2Proof.Machine
end

