-- ==== Sys2Proof/Laws/Ops.lean ====
section
/-! SUPPORT. What each shared operation of Machine/Ops.lean can do, said once: the result writes, the end of a command,
the return from a fault, the submission of a command. -/

namespace Sys2Proof.Machine

/-! ## The result writes (10_state.md R27, R28) -/

/-- R27's check, on the new capacity as the rule writes it. -/
theorem State.writeKeep_eq (s : State) (i : Reg) (v k : Nat) :
    s.writeKeep i v k = if s.maxDigits < max (max (s.cap i) k) (len v) then .error .capacity
      else .ok (s.setReg i (Mpr.ofValue v (max (max (s.cap i) k) (len v)))) := by
  unfold State.writeKeep
  by_cases h1 : s.maxDigits < max (s.cap i) k
  · rw [if_pos h1, if_pos (lt_of_lt_of_le h1 (le_max_left _ _))]
  · rw [if_neg h1]
    by_cases h2 : s.maxDigits < len v
    · rw [if_pos h2, if_pos (lt_of_lt_of_le h2 (le_max_right _ _))]
    · rw [if_neg h2, if_neg (not_lt.2 (max_le (not_lt.1 h1) (not_lt.1 h2)))]

theorem State.writeKeep_ok (s : State) (i : Reg) {v k : Nat} (hi : s.cap i ≤ s.maxDigits) (hk : k ≤ s.maxDigits)
    (hv : len v ≤ s.maxDigits) :
    s.writeKeep i v k = .ok (s.setReg i (Mpr.ofValue v (max (max (s.cap i) k) (len v)))) := by
  rw [State.writeKeep_eq, if_neg (not_lt.2 (max_le (max_le hi hk) hv))]

theorem State.writeKeep_capacity (s : State) (i : Reg) {v k : Nat} (h : s.maxDigits < k ∨ s.maxDigits < len v) :
    s.writeKeep i v k = .error .capacity := by
  rw [State.writeKeep_eq, if_pos]
  rcases h with h | h
  · exact lt_of_lt_of_le h ((le_max_right _ _).trans (le_max_left _ _))
  · exact lt_of_lt_of_le h (le_max_right _ _)

/-- A result write sets one register to one that fits, or raises CAPACITY. -/
theorem State.writeKeep_cases (s : State) (i : Reg) (v k : Nat) :
    s.writeKeep i v k = .error .capacity ∨
    ∃ m : Mpr, m.Fits s.maxDigits ∧ m.val = v ∧ s.cap i ≤ m.cap ∧ s.writeKeep i v k = .ok (s.setReg i m) := by
  rw [State.writeKeep_eq]
  split
  · exact .inl rfl
  · next h =>
    refine .inr ⟨_, Mpr.fits_ofValue (not_lt.1 h), Mpr.val_ofValue (le_max_right _ _), ?_, rfl⟩
    rw [Mpr.cap_ofValue]
    exact (le_max_left _ _).trans (le_max_left _ _)

theorem State.writeCompact_ok (s : State) (i : Reg) {v : Nat} (hv : len v ≤ s.maxDigits) :
    s.writeCompact i v = .ok (s.setReg i (Mpr.ofValue v (len v))) := if_neg (not_lt.2 hv)

theorem State.writeCompact_capacity (s : State) (i : Reg) {v : Nat} (hv : s.maxDigits < len v) :
    s.writeCompact i v = .error .capacity := if_pos hv

theorem State.writeCompact_cases (s : State) (i : Reg) (v : Nat) :
    s.writeCompact i v = .error .capacity ∨
    ∃ m : Mpr, m.Fits s.maxDigits ∧ m.val = v ∧ m.canonical = true ∧ s.writeCompact i v = .ok (s.setReg i m) := by
  by_cases h : s.maxDigits < len v
  · exact .inl (s.writeCompact_capacity i h)
  · exact .inr ⟨_, Mpr.fits_ofValue (not_lt.1 h), Mpr.val_ofValue le_rfl, Mpr.canonical_ofValue_len v,
      s.writeCompact_ok i (not_lt.1 h)⟩

theorem State.writeCompactPair_ok (s : State) (i j : Reg) {v w : Nat} (hv : len v ≤ s.maxDigits)
    (hw : len w ≤ s.maxDigits) :
    s.writeCompactPair i v j w = .ok ((s.setReg i (Mpr.ofValue v (len v))).setReg j (Mpr.ofValue w (len w))) := by
  rw [State.writeCompactPair, s.writeCompact_ok i hv]
  exact State.writeCompact_ok _ j (by simpa using hw)

theorem State.writeCompactPair_cases (s : State) (i j : Reg) (v w : Nat) :
    s.writeCompactPair i v j w = .error .capacity ∨
    ∃ m n : Mpr, m.Fits s.maxDigits ∧ n.Fits s.maxDigits ∧
      s.writeCompactPair i v j w = .ok ((s.setReg i m).setReg j n) := by
  unfold State.writeCompactPair
  rcases s.writeCompact_cases i v with h | ⟨m, hm, -, -, h⟩ <;> rw [h]
  · exact .inl rfl
  · rcases (s.setReg i m).writeCompact_cases j w with h2 | ⟨n, hn, -, -, h2⟩ <;> simp only [h2]
    · exact .inl (by simp)
    · exact .inr ⟨m, n, hm, hn, rfl⟩

/-! ## The end of a command (10_state.md R39, 60_exceptions.md R241) -/

@[simp] theorem State.finish_ok (s t : State) : s.finish (.ok t) = .next t.complete := rfl

@[simp] theorem State.finish_error (s : State) (code : FaultCode) : s.finish (.error code) = .next (s.takeFault code) := rfl

/-- A command ends in a next state with nothing pending: its results, or its fault record. -/
theorem State.finish_cases (s : State) (r : Except FaultCode State) :
    (∃ code, r = .error code ∧ s.finish r = .next (s.takeFault code)) ∨
    (∃ t, r = .ok t ∧ s.finish r = .next t.complete) := by
  cases r with
  | error code => exact .inl ⟨code, rfl, rfl⟩
  | ok t => exact .inr ⟨t, rfl, rfl⟩

/-! ## The return from a fault (60_exceptions.md R244, R245) and the submission of a command (R243) -/

theorem State.clearFault_fatal {s : State} (h : s.fatal = true) : s.clearFault = { s with drop := false } := by
  simp [State.clearFault, h]

theorem State.clearFault_recoverable {s : State} (h : s.fatal = false) :
    s.clearFault = { s with drop := false, fault := false, fcode := 0 } := by
  simp [State.clearFault, h]

theorem State.submit_accepted {s : State} (hb : s.pending = none) (hf : s.fault = false) (w : Word) :
    s.submit w = s.latch ⟨w, s.imm⟩ := by
  simp [State.submit, State.busy, hb, hf]

theorem State.submit_dropped {s : State} (h : s.pending.isSome = true ∨ s.fault = true) (w : Word) :
    s.submit w = { s with drop := true } := by
  unfold State.submit State.busy
  rw [if_pos]
  simpa using h

/-! ## The invariant -/

theorem State.Inv.cap_le {s : State} (h : s.Inv) (i : Reg) : s.cap i ≤ s.maxDigits := (h.regs_fit i).cap_le

theorem State.Inv.len_val_le {s : State} (h : s.Inv) (i : Reg) : len (s.val i) ≤ s.maxDigits :=
  (h.regs_fit i).len_val_le.trans (h.cap_le i)

theorem State.Inv.three_le {s : State} (h : s.Inv) : 3 ≤ s.maxDigits := h.config_legal.1

/-- A freshly reset machine meets the invariant, whatever its legal parameters. -/
theorem State.Inv.resetWith {c : Config} (h : c.legal) (es : List Event) (ws : List Word) :
    (State.resetWith c es ws).Inv := by
  refine ⟨h, fun i => ?_, fun _ => rfl, by simp [State.resetWith], by simp [State.resetWith], by simp [State.resetWith]⟩
  rw [State.reg_resetWith]
  exact Mpr.fits_empty _

theorem State.Inv.complete {s : State} (h : s.Inv) : s.complete.Inv :=
  ⟨h.config_legal, h.regs_fit, h.no_fault_code, h.fault_code, h.fatal_iff, by simp⟩

theorem State.Inv.setResult {s : State} (h : s.Inv) (w : Word) : (s.setResult w).Inv :=
  ⟨h.config_legal, h.regs_fit, h.no_fault_code, h.fault_code, h.fatal_iff, h.pending_clean⟩

theorem State.Inv.setReg {s : State} (h : s.Inv) (i : Reg) {m : Mpr} (hm : m.Fits s.maxDigits) : (s.setReg i m).Inv := by
  refine ⟨h.config_legal, fun j => ?_, h.no_fault_code, h.fault_code, h.fatal_iff, h.pending_clean⟩
  rw [State.reg_setReg, State.setReg_maxDigits]
  split
  · exact hm
  · exact h.regs_fit j

theorem State.Inv.takeFault {s : State} (h : s.Inv) (c : FaultCode) : (s.takeFault c).Inv := by
  refine ⟨h.config_legal, h.regs_fit, by simp, fun _ => ⟨c, rfl⟩, ?_, by simp⟩
  cases c <;> simp [FaultCode.code]

theorem State.Inv.resetCore {s : State} (h : s.Inv) : s.resetCore.Inv := by
  refine ⟨h.config_legal, fun i => ?_, by simp, by simp, by simp, by simp⟩
  rw [State.reg_resetCore]
  exact Mpr.fits_empty _

theorem State.Inv.clearFault {s : State} (h : s.Inv) : s.clearFault.Inv := by
  by_cases hf : s.fatal = true
  · rw [State.clearFault_fatal hf]
    exact ⟨h.config_legal, h.regs_fit, h.no_fault_code, h.fault_code, h.fatal_iff, h.pending_clean⟩
  · have hf' : s.fatal = false := by simpa using hf
    rw [State.clearFault_recoverable hf']
    exact ⟨h.config_legal, h.regs_fit, fun _ => rfl, by simp, by simp [hf'], fun _ => rfl⟩

theorem State.Inv.submit {s : State} (h : s.Inv) (w : Word) : (s.submit w).Inv := by
  unfold State.submit
  split
  · exact ⟨h.config_legal, h.regs_fit, h.no_fault_code, h.fault_code, h.fatal_iff, h.pending_clean⟩
  · next hn =>
    have hf : s.fault = false := by simp_all
    exact ⟨h.config_legal, h.regs_fit, h.no_fault_code, h.fault_code, h.fatal_iff, fun _ => hf⟩

theorem State.Inv.writeWindow {s : State} (h : s.Inv) (r : WindowReg) (w : Word) : (s.writeWindow r w).Inv := by
  cases r with
  | cmd => exact h.submit w
  | imm => exact ⟨h.config_legal, h.regs_fit, h.no_fault_code, h.fault_code, h.fatal_iff, h.pending_clean⟩
  | ctrl =>
    show (s.writeCtrl w).Inv
    unfold State.writeCtrl
    split
    · exact h.resetCore
    · split
      · exact h.clearFault
      · exact h
  | status => exact h
  | result => exact h
  | fcmd => exact h
  | fimm => exact h
  | params => exact h

end Sys2Proof.Machine
end

