-- ==== Sys2Proof/Laws/Exec.lean ====
section
/-! SUPPORT. What a command can do, said once over all instructions: it ends in its results or in its fault record, and
its results touch only its destinations and RESULT. -/

namespace Sys2Proof.Machine

/-- The committed results of instruction i in state s (10_state.md R30, R39, R43). -/
structure Commits (i : Instr) (s t : State) : Prop where
  /-- only the destinations change -/
  regs : ∀ j, j ∉ dests i → t.reg j = s.reg j
  /-- RESULT changes only where the instruction returns a scalar -/
  result : writesResult i = false → t.result = s.result
  /-- nothing else changes -/
  others : t = { s with regs := t.regs, result := t.result }
  /-- the registers keep fitting -/
  fits : (∀ j, (s.reg j).Fits s.maxDigits) → ∀ j, (t.reg j).Fits s.maxDigits

theorem Commits.setReg {i : Instr} {rd : Reg} (hd : rd ∈ dests i) (s : State) {m : Mpr}
    (hm : (∀ j, (s.reg j).Fits s.maxDigits) → m.Fits s.maxDigits) : Commits i s (s.setReg rd m) where
  regs j hj := State.reg_setReg_ne s (by rintro rfl; exact hj hd) m
  result _ := rfl
  others := rfl
  fits h j := by rw [State.reg_setReg]; split; exacts [hm h, h j]

theorem Commits.setResult {i : Instr} (hi : writesResult i = true) (s : State) (w : Word) :
    Commits i s (s.setResult w) where
  regs _ _ := rfl
  result h := by simp [hi] at h
  others := rfl
  fits h := h

/-- A command: its results or a fault. -/
structure Does (i : Instr) (s : State) (r : Except FaultCode State) : Prop where
  commits : ∀ t, r = .ok t → Commits i s t

theorem Does.error (i : Instr) (s : State) (c : FaultCode) : Does i s (.error c) := ⟨by intro t h; cases h⟩

theorem Does.ok {i : Instr} {s t : State} (h : Commits i s t) : Does i s (.ok t) :=
  ⟨by intro u hu; cases hu; exact h⟩

theorem Does.writeKeep {i : Instr} {rd : Reg} (hd : rd ∈ dests i) (s : State) (v k : Nat) :
    Does i s (s.writeKeep rd v k) := by
  rcases s.writeKeep_cases rd v k with h | ⟨m, hm, -, -, h⟩ <;> rw [h]
  · exact Does.error ..
  · exact Does.ok (Commits.setReg hd s fun _ => hm)

theorem Does.writeCompact {i : Instr} {rd : Reg} (hd : rd ∈ dests i) (s : State) (v : Nat) :
    Does i s (s.writeCompact rd v) := by
  rcases s.writeCompact_cases rd v with h | ⟨m, hm, -, -, h⟩ <;> rw [h]
  · exact Does.error ..
  · exact Does.ok (Commits.setReg hd s fun _ => hm)

theorem Does.writeCompactPair (s : State) (rd rd2 rs1 rs2 : Reg) (v w : Nat) :
    Does (.divmod rd rd2 rs1 rs2) s (s.writeCompactPair rd v rd2 w) := by
  rcases s.writeCompactPair_cases rd rd2 v w with h | ⟨m, n, hm, hn, h⟩ <;> rw [h]
  · exact .error ..
  · refine .ok ⟨fun j hj => ?_, fun _ => rfl, rfl, fun hs j => ?_⟩
    · simp only [dests, List.mem_cons, List.not_mem_nil, or_false, not_or] at hj
      rw [State.reg_setReg_ne _ hj.2, State.reg_setReg_ne _ hj.1]
    · rw [State.reg_setReg, State.reg_setReg]
      split
      · exact hn
      · split
        · exact hm
        · exact hs j

theorem Does.ite {i : Instr} {s : State} {p : Prop} [Decidable p] {a b : Except FaultCode State} (ha : Does i s a)
    (hb : Does i s b) : Does i s (if p then a else b) := by split; exacts [ha, hb]

/-- Every instruction ends its command, with results that touch only what it may write (10_state.md R39). -/
theorem exec_does (i : Instr) (s : State) : ∃ r, exec i s = s.finish r ∧ Does i s r := by
  cases i with
  | init rd => exact ⟨_, rfl, .ok (.setReg (by simp [dests]) s fun _ => Mpr.fits_empty _)⟩
  | enlarge rd imm => exact ⟨_, rfl, .writeKeep (by simp [dests]) ..⟩
  | compact rd =>
    exact ⟨_, rfl, .ok (.setReg (by simp [dests]) s fun h =>
      Mpr.fits_ofValue ((h rd).len_val_le.trans (h rd).cap_le))⟩
  | set rd rs1 => exact ⟨_, rfl, .writeKeep (by simp [dests]) ..⟩
  | setw rd imm => exact ⟨_, rfl, .writeKeep (by simp [dests]) ..⟩
  | dec rd imm => exact ⟨_, rfl, .ite (.error ..) (.ite (.error ..) (.writeKeep (by simp [dests]) ..))⟩
  | cmp rs1 rs2 => exact ⟨_, rfl, .ok (.setResult rfl ..)⟩
  | cmpw rs1 imm => exact ⟨_, rfl, .ok (.setResult rfl ..)⟩
  | addw rd rs1 imm => exact ⟨_, rfl, .writeKeep (by simp [dests]) ..⟩
  | mulw rd rs1 imm => exact ⟨_, rfl, .writeKeep (by simp [dests]) ..⟩
  | mul rd rs1 rs2 => exact ⟨_, rfl, .writeCompact (by simp [dests]) ..⟩
  | sub rd rs1 rs2 => exact ⟨_, rfl, .ite (.error ..) (.writeCompact (by simp [dests]) ..)⟩
  | testbit rs1 imm => exact ⟨_, rfl, .ok (.setResult rfl ..)⟩
  | setbit rd imm => exact ⟨_, rfl, .writeKeep (by simp [dests]) ..⟩
  | shl rd rs1 imm =>
    exact ⟨_, rfl, .ite (.writeCompact (by simp [dests]) ..) (.ite (.error ..) (.writeCompact (by simp [dests]) ..))⟩
  | divmod rd rd2 rs1 rs2 =>
    exact ⟨_, rfl, .ite (.error ..) (.writeCompactPair ..)⟩
  | gcd rd rs1 rs2 => exact ⟨_, rfl, .ite (.error ..) (.writeCompact (by simp [dests]) ..)⟩
  | rdcap rs1 => exact ⟨_, rfl, .ok (.setResult rfl ..)⟩
  | rddig rs1 imm => exact ⟨_, rfl, .ok (.setResult rfl ..)⟩

/-- What exec answers: a fault record, or committed results with nothing pending. -/
theorem exec_cases (i : Instr) (s : State) :
    (∃ code, exec i s = .next (s.takeFault code)) ∨ (∃ t, Commits i s t ∧ exec i s = .next t.complete) := by
  obtain ⟨r, hr, hd⟩ := exec_does i s
  rw [hr]
  rcases s.finish_cases r with ⟨code, -, h⟩ | ⟨t, ht, h⟩
  · exact .inl ⟨code, h⟩
  · exact .inr ⟨t, hd.commits t ht, h⟩

/-- What the CORE step answers: nothing to do, a fault record, or the committed results of the decoded command. -/
theorem State.coreStep_cases (s : State) :
    (s.pending = none ∧ s.coreStep = .next s) ∨
    (∃ c, s.pending = some c ∧
      ((∃ code, s.coreStep = .next (s.takeFault code)) ∨
       (∃ i t, decode c = .ok i ∧ Commits i s t ∧ s.coreStep = .next t.complete))) := by
  unfold State.coreStep
  cases hp : s.pending with
  | none => exact .inl ⟨rfl, rfl⟩
  | some c =>
    refine .inr ⟨c, rfl, ?_⟩
    simp only
    cases hd : decode c with
    | error e => exact .inl ⟨_, rfl⟩
    | ok i =>
      rcases exec_cases i s with ⟨code, h⟩ | ⟨t, ht, h⟩
      · exact .inl ⟨code, h⟩
      · exact .inr ⟨i, t, rfl, ht, h⟩

end Sys2Proof.Machine
end

