-- ==== Sys2Proof/Laws/PerInstr.lean ====
section
/-! SUPPORT. What is said of every instruction as syntax, one lemma per constructor. The family WordMatchesRow: the word
of an instruction matches the row of the opcode map that carries its mnemonic (30_encoding.md R88). -/

namespace Sys2Proof.Laws.WordMatchesRow

/-- Some row of the opcode map has the instruction's mnemonic and matches its word. -/
def Statement (i : Instr) : Prop :=
  ∃ r ∈ opcodeRows, r.mnemonic = i.mnemonic ∧ r.matchesWord (encode i).word = true

/-- A word whose used register fields are cleared by the mask keeps the row's fixed bits. -/
theorem of_fields (r : OpcodeRow) {op : Nat} (hop : op < 256) (rd rs1 rs2 rd2 : Reg)
    (h7 : BitVec.ofNat 4 (op / 16) &&& nibble r.mask 7 = nibble r.fixed 7)
    (h6 : BitVec.ofNat 4 op &&& nibble r.mask 6 = nibble r.fixed 6)
    (h5 : BitVec.ofNat 4 rd.val &&& nibble r.mask 5 = nibble r.fixed 5)
    (h4 : BitVec.ofNat 4 rs1.val &&& nibble r.mask 4 = nibble r.fixed 4)
    (h3 : BitVec.ofNat 4 rs2.val &&& nibble r.mask 3 = nibble r.fixed 3)
    (h2 : BitVec.ofNat 4 rd2.val &&& nibble r.mask 2 = nibble r.fixed 2)
    (h1 : 0 &&& nibble r.mask 1 = nibble r.fixed 1) (h0 : 0 &&& nibble r.mask 0 = nibble r.fixed 0) :
    r.matchesWord (commandWord op rd rs1 rs2 rd2) = true := by
  obtain ⟨e7, e6, e5, e4, e3, e2, e1, e0⟩ := nibble_commandWord hop rd rs1 rs2 rd2
  refine (r.matchesWord_iff _).2 fun k hk => ?_
  match k, hk with
  | 7, _ => rw [e7, h7]
  | 6, _ => rw [e6, h6]
  | 5, _ => rw [e5, h5]
  | 4, _ => rw [e4, h4]
  | 3, _ => rw [e3, h3]
  | 2, _ => rw [e2, h2]
  | 1, _ => rw [e1, h1]
  | 0, _ => rw [e0, h0]

/-- A used field: the mask's nibble is 0. -/
theorem used {x m f : BitVec 4} (hm : m = 0) (hf : f = 0) : x &&& m = f := by subst hm hf; exact BitVec.and_zero

theorem init (rd : Reg) : Statement (.init rd) :=
  ⟨⟨0x01, "INIT", 0xFF0FFFFF#32, 0x01000000#32⟩, by decide, rfl, of_fields _ (op := 0x01) (by decide) rd 0 0 0 (by decide) (by decide)
    (used (by decide) (by decide)) (by decide) (by decide) (by decide) (by decide) (by decide)⟩

theorem enlarge (rd : Reg) (imm : Word) : Statement (.enlarge rd imm) :=
  ⟨⟨0x02, "ENLARGE", 0xFF0FFFFF#32, 0x02000000#32⟩, by decide, rfl, of_fields _ (op := 0x02) (by decide) rd 0 0 0 (by decide) (by decide)
    (used (by decide) (by decide)) (by decide) (by decide) (by decide) (by decide) (by decide)⟩

theorem compact (rd : Reg) : Statement (.compact rd) :=
  ⟨⟨0x03, "COMPACT", 0xFF0FFFFF#32, 0x03000000#32⟩, by decide, rfl, of_fields _ (op := 0x03) (by decide) rd 0 0 0 (by decide) (by decide)
    (used (by decide) (by decide)) (by decide) (by decide) (by decide) (by decide) (by decide)⟩

theorem set (rd rs1 : Reg) : Statement (.set rd rs1) :=
  ⟨⟨0x04, "SET", 0xFF00FFFF#32, 0x04000000#32⟩, by decide, rfl, of_fields _ (op := 0x04) (by decide) rd rs1 0 0 (by decide) (by decide)
    (used (by decide) (by decide)) (used (by decide) (by decide)) (by decide) (by decide) (by decide) (by decide)⟩

theorem setw (rd : Reg) (imm : Word) : Statement (.setw rd imm) :=
  ⟨⟨0x05, "SETW", 0xFF0FFFFF#32, 0x05000000#32⟩, by decide, rfl, of_fields _ (op := 0x05) (by decide) rd 0 0 0 (by decide) (by decide)
    (used (by decide) (by decide)) (by decide) (by decide) (by decide) (by decide) (by decide)⟩

theorem dec (rd : Reg) (imm : Word) : Statement (.dec rd imm) :=
  ⟨⟨0x06, "DEC", 0xFF0FFFFF#32, 0x06000000#32⟩, by decide, rfl, of_fields _ (op := 0x06) (by decide) rd 0 0 0 (by decide) (by decide)
    (used (by decide) (by decide)) (by decide) (by decide) (by decide) (by decide) (by decide)⟩

theorem cmp (rs1 rs2 : Reg) : Statement (.cmp rs1 rs2) :=
  ⟨⟨0x08, "CMP", 0xFFF00FFF#32, 0x08000000#32⟩, by decide, rfl, of_fields _ (op := 0x08) (by decide) 0 rs1 rs2 0 (by decide) (by decide)
    (by decide) (used (by decide) (by decide)) (used (by decide) (by decide)) (by decide) (by decide) (by decide)⟩

theorem cmpw (rs1 : Reg) (imm : Word) : Statement (.cmpw rs1 imm) :=
  ⟨⟨0x09, "CMPW", 0xFFF0FFFF#32, 0x09000000#32⟩, by decide, rfl, of_fields _ (op := 0x09) (by decide) 0 rs1 0 0 (by decide) (by decide)
    (by decide) (used (by decide) (by decide)) (by decide) (by decide) (by decide) (by decide)⟩

theorem addw (rd rs1 : Reg) (imm : Word) : Statement (.addw rd rs1 imm) :=
  ⟨⟨0x10, "ADDW", 0xFF00FFFF#32, 0x10000000#32⟩, by decide, rfl, of_fields _ (op := 0x10) (by decide) rd rs1 0 0 (by decide) (by decide)
    (used (by decide) (by decide)) (used (by decide) (by decide)) (by decide) (by decide) (by decide) (by decide)⟩

theorem mulw (rd rs1 : Reg) (imm : Word) : Statement (.mulw rd rs1 imm) :=
  ⟨⟨0x11, "MULW", 0xFF00FFFF#32, 0x11000000#32⟩, by decide, rfl, of_fields _ (op := 0x11) (by decide) rd rs1 0 0 (by decide) (by decide)
    (used (by decide) (by decide)) (used (by decide) (by decide)) (by decide) (by decide) (by decide) (by decide)⟩

theorem mul (rd rs1 rs2 : Reg) : Statement (.mul rd rs1 rs2) :=
  ⟨⟨0x18, "MUL", 0xFF000FFF#32, 0x18000000#32⟩, by decide, rfl, of_fields _ (op := 0x18) (by decide) rd rs1 rs2 0 (by decide) (by decide)
    (used (by decide) (by decide)) (used (by decide) (by decide)) (used (by decide) (by decide)) (by decide) (by decide) (by decide)⟩

theorem sub (rd rs1 rs2 : Reg) : Statement (.sub rd rs1 rs2) :=
  ⟨⟨0x19, "SUB", 0xFF000FFF#32, 0x19000000#32⟩, by decide, rfl, of_fields _ (op := 0x19) (by decide) rd rs1 rs2 0 (by decide) (by decide)
    (used (by decide) (by decide)) (used (by decide) (by decide)) (used (by decide) (by decide)) (by decide) (by decide) (by decide)⟩

theorem testbit (rs1 : Reg) (imm : Word) : Statement (.testbit rs1 imm) :=
  ⟨⟨0x20, "TESTBIT", 0xFFF0FFFF#32, 0x20000000#32⟩, by decide, rfl, of_fields _ (op := 0x20) (by decide) 0 rs1 0 0 (by decide) (by decide)
    (by decide) (used (by decide) (by decide)) (by decide) (by decide) (by decide) (by decide)⟩

theorem setbit (rd : Reg) (imm : Word) : Statement (.setbit rd imm) :=
  ⟨⟨0x21, "SETBIT", 0xFF0FFFFF#32, 0x21000000#32⟩, by decide, rfl, of_fields _ (op := 0x21) (by decide) rd 0 0 0 (by decide) (by decide)
    (used (by decide) (by decide)) (by decide) (by decide) (by decide) (by decide) (by decide)⟩

theorem shl (rd rs1 : Reg) (imm : Word) : Statement (.shl rd rs1 imm) :=
  ⟨⟨0x22, "SHL", 0xFF00FFFF#32, 0x22000000#32⟩, by decide, rfl, of_fields _ (op := 0x22) (by decide) rd rs1 0 0 (by decide) (by decide)
    (used (by decide) (by decide)) (used (by decide) (by decide)) (by decide) (by decide) (by decide) (by decide)⟩

theorem divmod (rd rd2 rs1 rs2 : Reg) : Statement (.divmod rd rd2 rs1 rs2) :=
  ⟨⟨0x28, "DIVMOD", 0xFF0000FF#32, 0x28000000#32⟩, by decide, rfl, of_fields _ (op := 0x28) (by decide) rd rs1 rs2 rd2 (by decide) (by decide)
    (used (by decide) (by decide)) (used (by decide) (by decide)) (used (by decide) (by decide)) (used (by decide) (by decide)) (by decide) (by decide)⟩

theorem gcd (rd rs1 rs2 : Reg) : Statement (.gcd rd rs1 rs2) :=
  ⟨⟨0x29, "GCD", 0xFF000FFF#32, 0x29000000#32⟩, by decide, rfl, of_fields _ (op := 0x29) (by decide) rd rs1 rs2 0 (by decide) (by decide)
    (used (by decide) (by decide)) (used (by decide) (by decide)) (used (by decide) (by decide)) (by decide) (by decide) (by decide)⟩

theorem rdcap (rs1 : Reg) : Statement (.rdcap rs1) :=
  ⟨⟨0x30, "RDCAP", 0xFFF0FFFF#32, 0x30000000#32⟩, by decide, rfl, of_fields _ (op := 0x30) (by decide) 0 rs1 0 0 (by decide) (by decide)
    (by decide) (used (by decide) (by decide)) (by decide) (by decide) (by decide) (by decide)⟩

theorem rddig (rs1 : Reg) (imm : Word) : Statement (.rddig rs1 imm) :=
  ⟨⟨0x31, "RDDIG", 0xFFF0FFFF#32, 0x31000000#32⟩, by decide, rfl, of_fields _ (op := 0x31) (by decide) 0 rs1 0 0 (by decide) (by decide)
    (by decide) (used (by decide) (by decide)) (by decide) (by decide) (by decide) (by decide)⟩

end Sys2Proof.Laws.WordMatchesRow
end

