-- ==== Sys2Proof/Laws/Results.lean ====
section
/-! SUPPORT. A command whose result fits, to its end: what the two result writes of 10_state.md R27 and R28 leave when
the command completes, and when two registers hold the same digits. -/

namespace Sys2Proof.Machine

theorem writesOnly_setReg (s : State) (rd : Reg) (m : Mpr) : WritesOnly rd s (s.setReg rd m).complete :=
  ⟨fun _ hj => State.reg_setReg_ne s hj m, rfl⟩

theorem returnsOnly_setResult (s : State) (w : Word) : ReturnsOnly w s (s.setResult w).complete := rfl

/-- A command that ends in WRITE_KEEP of a value that fits (10_state.md R27). -/
theorem State.finish_writeKeep {s : State} (hs : s.Inv) (rd : Reg) {v k : Nat} (hk : k ≤ s.maxDigits)
    (hv : len v ≤ s.maxDigits) :
    ∃ t, s.finish (s.writeKeep rd v k) = .next t ∧ WritesOnly rd s t ∧ t.val rd = v ∧
      t.cap rd = max (max (s.cap rd) k) (len v) ∧ t.reg rd = Mpr.ofValue v (max (max (s.cap rd) k) (len v)) := by
  rw [s.writeKeep_ok rd (hs.cap_le rd) hk hv]
  exact ⟨_, rfl, writesOnly_setReg .., by simp [State.val, Mpr.val_ofValue], by simp [State.cap], by simp⟩

/-- A command that ends in WRITE_COMPACT of a value that fits (10_state.md R28). -/
theorem State.finish_writeCompact {s : State} (rd : Reg) {v : Nat} (hv : len v ≤ s.maxDigits) :
    ∃ t, s.finish (s.writeCompact rd v) = .next t ∧ WritesOnly rd s t ∧ t.val rd = v ∧ t.cap rd = len v ∧
      t.reg rd = Mpr.ofValue v (len v) := by
  rw [s.writeCompact_ok rd hv]
  exact ⟨_, rfl, writesOnly_setReg .., by simp [State.val, Mpr.val_ofValue], by simp [State.cap], by simp⟩

/-- Two registers with the same value show the same digits, whatever their capacities. -/
theorem Mpr.Fits.digit_eq_of_val {k l : Nat} {a b : Mpr} (ha : a.Fits k) (hb : b.Fits l) (h : a.val = b.val) (j : Nat) :
    a.digit j = b.digit j := by
  rw [ha.digit_eq, hb.digit_eq, h]

/-- Two registers with the same capacity and value are equal. -/
theorem Mpr.Fits.ext {k l : Nat} {a b : Mpr} (ha : a.Fits k) (hb : b.Fits l) (hc : a.cap = b.cap) (hv : a.val = b.val) :
    a = b := by
  rw [← Mpr.ofValue_val ha, ← Mpr.ofValue_val hb, hc, hv]

/-- Committed results keep the invariant. -/
theorem Commits.inv {i : Instr} {s t : State} (h : Commits i s t) (hs : s.Inv) : t.Inv := by
  have e := h.others
  have hm : t.maxDigits = s.maxDigits := by rw [e]; rfl
  have hf := h.fits hs.regs_fit
  constructor
  · rw [e]; exact hs.config_legal
  · rw [hm]; exact hf
  · rw [e]; exact hs.no_fault_code
  · rw [e]; exact hs.fault_code
  · rw [e]; exact hs.fatal_iff
  · rw [e]; exact hs.pending_clean

end Sys2Proof.Machine
end

