-- ==== Sys2Proof/Laws/Window.lean ====
section
/-! SUPPORT. The register window and the step: what an access does, case by case, and what a step does with each head
of the schedule. -/

namespace Sys2Proof.Machine

theorem WindowReg.offset_lt (r : WindowReg) : r.offset < 32 := by cases r <;> decide

@[simp] theorem WindowReg.ofOffset_offset (r : WindowReg) : WindowReg.ofOffset r.offset = some r := by cases r <;> rfl

/-- An offset inside the window is a register's exactly when it is a multiple of 4 (20_memory.md R64, R65). -/
theorem WindowReg.ofOffset_isSome : ∀ o < 32, (WindowReg.ofOffset o).isSome = true ↔ o % 4 = 0 := by decide

theorem State.access_register (s : State) (r : WindowReg) (effect : WindowReg → State) :
    s.access 32 (s.config.windowBase + r.offset) effect = .next (effect r) := by
  have := r.offset_lt
  unfold State.access
  rw [if_neg (by omega), if_neg (by simp)]
  simp

theorem State.access_outside (s : State) {width addr : Nat} (effect : WindowReg → State)
    (h : addr < s.config.windowBase ∨ s.config.windowBase + 32 ≤ addr) :
    s.access width addr effect = .fault (.outsideWindow addr) := if_pos h

/-- Every access: an effect on one register, a fault, or a refusal. -/
theorem State.access_cases (s : State) (width addr : Nat) (effect : WindowReg → State) :
    (∃ r : WindowReg, width = 32 ∧ addr = s.config.windowBase + r.offset ∧ s.access width addr effect = .next (effect r)) ∨
    (s.access width addr effect = .fault (.outsideWindow addr)) ∨
    (s.access width addr effect = .refused (.undefinedAccess width (addr - s.config.windowBase))) := by
  unfold State.access
  split
  · exact .inr (.inl rfl)
  · next hin =>
    split
    · exact .inr (.inr rfl)
    · next hw =>
      cases ho : WindowReg.ofOffset (addr - s.config.windowBase) with
      | none => exact .inr (.inr rfl)
      | some r =>
        have key : ∀ o < 32, ∀ r, WindowReg.ofOffset o = some r → o = r.offset := by
          intro o ho r; interval_cases o <;> intro h <;> first | cases h; rfl | cases h
        have := key _ (by omega) r ho
        exact .inl ⟨r, by simpa using hw, by omega, rfl⟩

theorem step_nil {s : State} (h : s.schedule = []) : step s = s.coreStep := by simp [step, h]

theorem step_cons {s : State} {e : Event} {rest : List Event} (h : s.schedule = e :: rest) :
    step s = State.deliver { s with schedule := rest } e := by simp [step, h]

theorem step_write {s : State} {r : WindowReg} {w : Word} {rest : List Event}
    (h : s.schedule = Config.writes s.config r w :: rest) :
    step s = .next (State.writeWindow { s with schedule := rest } r w) := by
  rw [step_cons h]
  exact State.access_register { s with schedule := rest } r _

theorem step_read {s : State} {r : WindowReg} {rest : List Event}
    (h : s.schedule = Config.reads s.config r :: rest) :
    step s = .next (State.hostRead { s with schedule := rest } r) := by
  rw [step_cons h]
  exact State.access_register { s with schedule := rest } r _

/-- The CORE's turn, scheduled or not: the CORE step with the turn taken from the schedule. -/
theorem step_coreNext {s : State} (h : s.coreNext) : step s = State.coreStep { s with schedule := s.schedule.tail } := by
  rcases h with h | ⟨rest, h⟩
  · rw [step_nil h, h]
    congr 1
    cases s; simp_all
  · rw [step_cons h, h]
    rfl

/-- Everything a step that gives a next state can be: the CORE's turn, a read, a write, or a platform reset. -/
theorem step_cases {s t : State} (h : step s = .next t) :
    (s.coreNext ∧ ∃ rest, State.coreStep { s with schedule := rest } = .next t ∧ (s.schedule = [] → rest = []) ∧
      ∀ e r, s.schedule = e :: r → rest = r) ∨
    (∃ r rest, s.schedule = Config.reads s.config r :: rest ∧ t = State.hostRead { s with schedule := rest } r) ∨
    (∃ r w rest, s.schedule = Config.writes s.config r w :: rest ∧ t = State.writeWindow { s with schedule := rest } r w) ∨
    (∃ rest, s.schedule = .platformReset :: rest ∧ t = State.resetCore { s with schedule := rest }) := by
  cases hs : s.schedule with
  | nil =>
    rw [step_nil hs] at h
    have e : ({ s with schedule := [] } : State) = s := by cases s; simp_all
    exact .inl ⟨.inl hs, [], by rw [e]; exact h, fun _ => rfl, by simp⟩
  | cons e rest =>
    rw [step_cons hs] at h
    cases e with
    | coreTurn => exact .inl ⟨.inr ⟨rest, hs⟩, rest, h, by simp, fun e r he => by cases he; rfl⟩
    | platformReset => cases h; exact .inr (.inr (.inr ⟨rest, rfl, rfl⟩))
    | hostRead width addr =>
      rcases State.access_cases { s with schedule := rest } width addr _ with ⟨r, rfl, rfl, hr⟩ | hr | hr
      · rw [State.deliver, hr] at h; cases h; exact .inr (.inl ⟨r, rest, rfl, rfl⟩)
      · rw [State.deliver, hr] at h; cases h
      · rw [State.deliver, hr] at h; cases h
    | hostWrite width addr w =>
      rcases State.access_cases { s with schedule := rest } width addr
        (fun r => State.writeWindow { s with schedule := rest } r w) with ⟨r, rfl, rfl, hr⟩ | hr | hr
      · rw [State.deliver, hr] at h; cases h; exact .inr (.inr (.inl ⟨r, w, rest, rfl, rfl⟩))
      · rw [State.deliver, hr] at h; cases h
      · rw [State.deliver, hr] at h; cases h

/-! ## Runs -/

theorem runFor_zero (s : State) : runFor 0 s = .next s := rfl

theorem runFor_succ_of_next {s t : State} (h : step s = .next t) (n : Nat) : runFor (n + 1) s = runFor n t := by
  have h' : Sys2Proof.core.step s = .next t := h
  show Sys2Proof.core.run (n + 1) s = _
  simp only [Host.Core.run, h']
  rfl

theorem runFor_succ_ne {s : State} (h : ∀ t, step s ≠ .next t) (n : Nat) (t : State) : runFor (n + 1) s ≠ .next t := by
  show Sys2Proof.core.run (n + 1) s ≠ _
  cases hs : step s with
  | next u => exact absurd hs (h u)
  | fault r =>
    have h' : Sys2Proof.core.step s = .fault r := hs
    simp only [Host.Core.run, h']
    exact fun e => by cases e
  | refused r =>
    have h' : Sys2Proof.core.step s = .refused r := hs
    simp only [Host.Core.run, h']
    exact fun e => by cases e

/-- A run of m + n steps goes on where the first m ended. -/
theorem runFor_add {m n : Nat} {s t : State} (h : runFor m s = .next t) : runFor (m + n) s = runFor n t := by
  induction m generalizing s with
  | zero => cases h; rw [Nat.zero_add]
  | succ m ih =>
    rw [Nat.succ_add]
    cases hs : step s with
    | next u =>
      rw [runFor_succ_of_next hs] at h ⊢
      exact ih h
    | fault r => exact absurd h (runFor_succ_ne (by simp [hs]) m t)
    | refused r => exact absurd h (runFor_succ_ne (by simp [hs]) m t)

end Sys2Proof.Machine
end

