-- ==== Sys2Proof/Laws/RunEnd.lean ====
section
/-! SUPPORT. Host programs (70_reset_and_hazards.md R276) piece by piece, and the end of a run (R283): what a read that
ends a run is, and that the search for it goes along the run. -/

namespace Sys2Proof.Machine

@[simp] theorem Config.issueAll_nil (c : Config) : Config.issueAll c [] = [] := rfl

@[simp] theorem Config.issueAll_cons (c : Config) (i : Instr) (polls : Nat) (program : List (Instr × Nat)) :
    Config.issueAll c ((i, polls) :: program) = Config.issue c i polls ++ Config.issueAll c program := rfl

@[simp] theorem Config.issueAll_append (c : Config) (p q : List (Instr × Nat)) :
    Config.issueAll c (p ++ q) = Config.issueAll c p ++ Config.issueAll c q := List.flatMap_append

@[simp] theorem State.endState_regs (s : State) : s.endState.regs = s.regs := rfl
@[simp] theorem State.endState_imm (s : State) : s.endState.imm = s.imm := rfl
@[simp] theorem State.endState_status (s : State) : s.endState.status = s.statusWord := rfl
@[simp] theorem State.endState_result (s : State) : s.endState.result = s.result := rfl
@[simp] theorem State.endState_fcmd (s : State) : s.endState.fcmd = s.fcmd := rfl
@[simp] theorem State.endState_fimm (s : State) : s.endState.fimm = s.fimm := rfl
@[simp] theorem State.endState_params (s : State) : s.endState.params = s.paramsWord := rfl

/-- A write to CMD, of some word, is what Config.submits finds. -/
theorem Config.submits_iff (c : Config) (e : Event) :
    Config.submits c e = true ↔ ∃ w : Word, e = Config.writes c .cmd w := by
  cases e <;> simp [Config.submits, Config.writes]

theorem State.endsRun_nil {s : State} (h : s.schedule = []) : s.endsRun = false := by
  simp [State.endsRun, h]

theorem State.endsRun_cons {s : State} {e : Event} {rest : List Event} (h : s.schedule = e :: rest) :
    s.endsRun = (e == Config.reads s.config .status && s.quiescent && !rest.any (Config.submits s.config)) := by
  simp [State.endsRun, h]

theorem runEndWithin_of_endsRun {s : State} (h : s.endsRun = true) (n : Nat) : runEndWithin n s = some s := by
  cases n <;> simp [runEndWithin, h]

theorem runEndWithin_succ_of_next {s t : State} (h : s.endsRun = false) (hs : step s = .next t) (n : Nat) :
    runEndWithin (n + 1) s = runEndWithin n t := by
  simp [runEndWithin, h, hs]

theorem runEndWithin_succ_stopped {s : State} (h : s.endsRun = false) (hs : ∀ t, step s ≠ .next t) (n : Nat) :
    runEndWithin (n + 1) s = none := by
  rw [runEndWithin, if_neg (by simp [h])]
  cases hk : step s with
  | next t => exact absurd hk (hs t)
  | fault r => rfl
  | refused r => rfl

/-- A HOST write changes neither what is still to come nor the parameters. -/
theorem State.writeWindow_schedule (s : State) (r : WindowReg) (w : Word) : (s.writeWindow r w).schedule = s.schedule := by
  cases r <;> simp only [State.writeWindow, State.submit, State.writeCtrl, State.clearFault] <;> (repeat' split) <;> rfl

theorem State.writeWindow_config (s : State) (r : WindowReg) (w : Word) : (s.writeWindow r w).config = s.config := by
  cases r <;> simp only [State.writeWindow, State.submit, State.writeCtrl, State.clearFault] <;> (repeat' split) <;> rfl

/-- A CORE step leaves the schedule and the parameters and nothing pending. -/
theorem State.coreStep_leaves {s t : State} (h : s.coreStep = .next t) :
    t.schedule = s.schedule ∧ t.config = s.config ∧ t.pending = none := by
  rcases s.coreStep_cases with ⟨hp, h1⟩ | ⟨c, -, ⟨code, h1⟩ | ⟨i, u, -, hc, h1⟩⟩ <;> rw [h1] at h <;> cases h
  · exact ⟨rfl, rfl, hp⟩
  · exact ⟨rfl, rfl, rfl⟩
  · rw [hc.others]; exact ⟨rfl, rfl, rfl⟩

/-- A step takes one event from the schedule, and keeps the parameters. -/
theorem step_takes_event {s t : State} (h : step s = .next t) : t.schedule = s.schedule.tail ∧ t.config = s.config := by
  rcases step_cases h with ⟨-, rest, hc, hn, he⟩ | ⟨r, rest, hs, rfl⟩ | ⟨r, w, rest, hs, rfl⟩ | ⟨rest, hs, rfl⟩
  · obtain ⟨h1, h2, -⟩ := State.coreStep_leaves hc
    refine ⟨?_, h2⟩
    rw [h1]
    cases hs : s.schedule with
    | nil => exact hn hs
    | cons e r => exact he e r hs
  · rw [hs]; exact ⟨rfl, rfl⟩
  · rw [hs]; exact ⟨State.writeWindow_schedule .., State.writeWindow_config ..⟩
  · rw [hs]; exact ⟨rfl, rfl⟩

end Sys2Proof.Machine
end

