-- ==== Sys2Proof/Machine/Assembler.lean ====
section
/-! DEFINITION. The assembler's language (30_encoding.md R93) and the pseudo-instructions written in it (R94): one line
is one command, or one pseudo-instruction with its expansion. What separates tokens is the model's choice (log 17). -/

namespace Sys2Proof.Machine

/-- An operand of a line (30_encoding.md R93): a register `M0` .. `M15`, an immediate `#n`, a character `'c'`, or the
string of PARSE. -/
inductive AsmOperand where
  | reg (r : Reg)
  | imm (n : Word)
  | char (c : Byte)
  | text (cs : List Byte)
deriving DecidableEq, Repr

/-- One line of assembly, in tokens. -/
structure AsmLine where
  mnemonic : String
  operands : List AsmOperand
deriving DecidableEq, Repr

/-- The forms of 30_encoding.md R93: destination registers, then source registers, then the immediate. -/
def AsmLine.instr (l : AsmLine) : Option Instr :=
  match l.mnemonic, l.operands with
  | "INIT", [.reg d] => some (.init d)
  | "ENLARGE", [.reg d, .imm n] => some (.enlarge d n)
  | "COMPACT", [.reg d] => some (.compact d)
  | "SET", [.reg d, .reg s] => some (.set d s)
  | "SETW", [.reg d, .imm n] => some (.setw d n)
  | "DEC", [.reg d, .char c] => some (.dec d (decOperand c))
  | "DEC", [.reg d, .imm n] => some (.dec d n)
  | "CMP", [.reg s, .reg t] => some (.cmp s t)
  | "CMPW", [.reg s, .imm n] => some (.cmpw s n)
  | "ADDW", [.reg d, .reg s, .imm n] => some (.addw d s n)
  | "MULW", [.reg d, .reg s, .imm n] => some (.mulw d s n)
  | "MUL", [.reg d, .reg s, .reg t] => some (.mul d s t)
  | "SUB", [.reg d, .reg s, .reg t] => some (.sub d s t)
  | "TESTBIT", [.reg s, .imm n] => some (.testbit s n)
  | "SETBIT", [.reg d, .imm n] => some (.setbit d n)
  | "SHL", [.reg d, .reg s, .imm n] => some (.shl d s n)
  | "DIVMOD", [.reg q, .reg r, .reg a, .reg b] => some (.divmod q r a b)
  | "GCD", [.reg d, .reg s, .reg t] => some (.gcd d s t)
  | "RDCAP", [.reg s] => some (.rdcap s)
  | "RDDIG", [.reg s, .imm n] => some (.rddig s n)
  | _, _ => none

/-- The pseudo-instructions' forms (30_encoding.md R94). -/
def AsmLine.pseudo (l : AsmLine) : Option Pseudo :=
  match l.mnemonic, l.operands with
  | "DESTROY", [.reg d] => some (.destroy d)
  | "ZERO", [.reg d] => some (.zero d)
  | "MOV", [.reg d, .reg s] => some (.mov d s)
  | "LI", [.reg d, .imm n] => some (.li d n)
  | "INC", [.reg d] => some (.inc d)
  | "SQR", [.reg d, .reg s] => some (.sqr d s)
  | "PARSE", [.reg d, .text cs] => some (.parse d cs)
  | _, _ => none

/-- What a line assembles to: one instruction that has an encoding, or the expansion of a pseudo-instruction. -/
def AsmLine.assemble (l : AsmLine) : Option (List Instr) :=
  match l.instr with
  | some i => if i.wf then some [i] else none
  | none => l.pseudo.map Pseudo.expand

/-- The line of an instruction, in the first form 30_encoding.md R93 gives for `#n` operands. -/
def asmLineOf (i : Instr) : AsmLine :=
  ⟨i.mnemonic, match i with
    | .init d => [.reg d]
    | .enlarge d n => [.reg d, .imm n]
    | .compact d => [.reg d]
    | .set d s => [.reg d, .reg s]
    | .setw d n => [.reg d, .imm n]
    | .dec d n => [.reg d, .imm n]
    | .cmp s t => [.reg s, .reg t]
    | .cmpw s n => [.reg s, .imm n]
    | .addw d s n => [.reg d, .reg s, .imm n]
    | .mulw d s n => [.reg d, .reg s, .imm n]
    | .mul d s t => [.reg d, .reg s, .reg t]
    | .sub d s t => [.reg d, .reg s, .reg t]
    | .testbit s n => [.reg s, .imm n]
    | .setbit d n => [.reg d, .imm n]
    | .shl d s n => [.reg d, .reg s, .imm n]
    | .divmod q r a b => [.reg q, .reg r, .reg a, .reg b]
    | .gcd d s t => [.reg d, .reg s, .reg t]
    | .rdcap s => [.reg s]
    | .rddig s n => [.reg s, .imm n]⟩

/-! ## Lines as characters -/

/-- The value of a digit character in a base up to 16. -/
def digitOfChar (base : Nat) (c : Char) : Option Nat :=
  let n := c.toNat
  let d := if 48 ≤ n ∧ n ≤ 57 then n - 48 else if 65 ≤ n ∧ n ≤ 70 then n - 55 else if 97 ≤ n ∧ n ≤ 102 then n - 87 else 16
  if d < base then some d else none

/-- The number that digit characters of a base write; none for no digit or another character. -/
def numberOf (base : Nat) : List Char → Option Nat
  | [] => none
  | cs => cs.foldl (fun acc c => (acc.bind fun v => (digitOfChar base c).map fun d => v * base + d)) (some 0)

/-- `n` decimal or `0x` hexadecimal, at most 0xFFFFFFFF (30_encoding.md R93). DESIGN CHOICE (log 17): leading zeros are
allowed, the x is a small letter, and a hexadecimal digit may be a capital or a small one. -/
def immediateOf (cs : List Char) : Option Word :=
  let n := match cs with
    | '0' :: 'x' :: hex => numberOf 16 hex
    | _ => numberOf 10 cs
  n.bind fun v => if v < 2 ^ 32 then some (BitVec.ofNat 32 v) else none

/-- `M0` to `M15`, the digits after the M (30_encoding.md R93). Digits with leading zeros name a register too: `M01` is
M1. DESIGN CHOICE (log 17): R93 does not write such a name. -/
def registerOf (cs : List Char) : Option Reg :=
  (numberOf 10 cs).bind fun v => if h : v < 16 then some ⟨v, h⟩ else none

/-- A character of one byte. -/
def byteOf (c : Char) : Option Byte := if c.toNat < 256 then some (BitVec.ofNat 8 c.toNat) else none

/-- The characters before the next comma or blank, and the rest. -/
def takeToken : List Char → List Char × List Char
  | [] => ([], [])
  | c :: cs => if c = ',' ∨ c = ' ' then ([], c :: cs) else let r := takeToken cs; (c :: r.1, r.2)

/-- The characters before the next double quote, and the rest after it; none if there is no double quote. DESIGN CHOICE
(log 17): R94 does not say how a double quote inside the string of PARSE is written; here it cannot be, since the next
double quote ends the string and there is no escape. -/
def takeQuoted : List Char → Option (List Char × List Char)
  | [] => none
  | c :: cs => if c = '"' then some ([], cs) else (takeQuoted cs).map fun r => (c :: r.1, r.2)

/-- One operand at the head of the characters, and the rest. DESIGN CHOICE (log 17): the character of DEC is any one
character between single quotes, a single quote or a backslash too, with no escape. -/
def readOperand : List Char → Option (AsmOperand × List Char)
  | 'M' :: cs => let r := takeToken cs; (registerOf r.1).map fun i => (.reg i, r.2)
  | '#' :: cs => let r := takeToken cs; (immediateOf r.1).map fun n => (.imm n, r.2)
  | '\'' :: c :: '\'' :: cs => (byteOf c).map fun b => (.char b, cs)
  | '"' :: cs => (takeQuoted cs).bind fun r => (r.1.mapM byteOf).map fun bs => (.text bs, r.2)
  | _ => none

/-- The operands, separated by commas; `fuel` bounds their number. -/
def readOperands : Nat → List Char → Option (List AsmOperand)
  | 0, _ => none
  | fuel + 1, cs =>
    (readOperand (cs.dropWhile (· == ' '))).bind fun r =>
      match r.2.dropWhile (· == ' ') with
      | [] => some [r.1]
      | ',' :: more => (readOperands fuel more).map fun os => r.1 :: os
      | _ => none

/-- A line of characters as tokens: the mnemonic, blanks, the operands. -/
def readLine (cs : List Char) : Option AsmLine :=
  let r := takeToken (cs.dropWhile (· == ' '))
  (readOperands cs.length r.2).map fun os => ⟨String.ofList r.1, os⟩

/-- What a line of characters assembles to (30_encoding.md R93, R94). -/
def assembleLine (cs : List Char) : Option (List Instr) := (readLine cs).bind AsmLine.assemble

end Sys2Proof.Machine
end

