-- ==== Sys2Proof/Tests/Slice0.lean ====
section
/-! SUPPORT. The model's own tests. Expected results come from spec/: the words from the patterns of 30_encoding.md R88,
the results from the vectors V<n> and H<n> of 95_test_vectors.md (MAX_DIGITS = 8), named in each docstring. The last part
shows, for every statement with hypotheses, a state and operands that meet them, clause by clause. -/

namespace Sys2Proof.Tests

open Sys2Proof.Machine

/-! ## Helpers -/

/-- The state with these digits in these registers. -/
def load (s : State) : List (Reg × List Word) → State
  | [] => s
  | (i, ds) :: more => load (s.setReg i ⟨ds⟩) more

/-- The machine after reset with these digits in these registers. -/
def machine (rs : List (Reg × List Word)) : State := load State.reset rs

/-- A next state of which p holds. -/
def gives (o : Host.Outcome State Fault Refusal) (p : State → Bool) : Bool :=
  match o with
  | .next t => p t
  | .fault _ => false
  | .refused _ => false

/-- One step that executes the word w with the operand imm. -/
def runs (rs : List (Reg × List Word)) (w imm : Nat) (p : State → Bool) : Bool :=
  gives (step ((machine rs).withFetchWord 64 (imm * 2 ^ 32 + w))) fun t => p t && !t.busy

/-- The digits of register i. -/
def digitsOfReg (t : State) (i : Reg) : List Word := (t.reg i).digits

/-- Every register within a capacity of n digits, every digit below the radix. -/
def loadable (n : Nat) (rs : List (Reg × List Word)) : Bool :=
  rs.all fun p => p.2.length ≤ n && p.2.all fun d => d.toNat < radix

theorem load_inv {s : State} (hs : s.Inv) {rs : List (Reg × List Word)} (h : loadable s.maxDigits rs = true) :
    (load s rs).Inv := by
  induction rs generalizing s with
  | nil => exact hs
  | cons p rs ih =>
    have h1 : p.2.length ≤ s.maxDigits ∧ ∀ d ∈ p.2, d.toNat < radix := by simp [loadable] at h ⊢; exact h.1
    have h2 : loadable s.maxDigits rs = true := by simp [loadable] at h ⊢; exact h.2
    exact ih (hs.setReg p.1 ⟨h1.1, h1.2⟩) h2

theorem reset_inv : State.reset.Inv := State.Inv.resetWith (by decide) [] []

/-! ## Well-formedness and decoding (30_encoding.md R86 to R93) -/

/-- R89: the one ill-formed instruction. -/
theorem test_wf_refuses_same_destinations : Instr.wf (.divmod 3 3 1 2) = false := by decide

/-- 10_state.md R40 -/
theorem test_wf_accepts_other_aliasing : Instr.wf (.divmod 1 2 1 2) = true ∧ Instr.wf (.mul 1 1 1) = true := by decide

/-! One word per instruction, its bits written out from the pattern of R88 (opcode, rd, rs1, rs2, rd2, reserved). -/

theorem test_decode_init : decode ⟨0b00000001010100000000000000000000#32, 9⟩ = .ok (.init 5) := by decide

theorem test_decode_enlarge : decode ⟨0b00000010101000000000000000000000#32, 9⟩ = .ok (.enlarge 10 9) := by decide

theorem test_decode_compact : decode ⟨0b00000011111100000000000000000000#32, 9⟩ = .ok (.compact 15) := by decide

theorem test_decode_set : decode ⟨0b00000100011010010000000000000000#32, 9⟩ = .ok (.set 6 9) := by decide

theorem test_decode_setw : decode ⟨0b00000101110000000000000000000000#32, 9⟩ = .ok (.setw 12 9) := by decide

theorem test_decode_dec : decode ⟨0b00000110001100000000000000000000#32, 9⟩ = .ok (.dec 3 9) := by decide

theorem test_decode_cmp : decode ⟨0b00001000000000101101000000000000#32, 9⟩ = .ok (.cmp 2 13) := by decide

theorem test_decode_cmpw : decode ⟨0b00001001000010110000000000000000#32, 9⟩ = .ok (.cmpw 11 9) := by decide

theorem test_decode_addw : decode ⟨0b00010000010110100000000000000000#32, 9⟩ = .ok (.addw 5 10 9) := by decide

theorem test_decode_mulw : decode ⟨0b00010001100101100000000000000000#32, 9⟩ = .ok (.mulw 9 6 9) := by decide

theorem test_decode_mul : decode ⟨0b00011000001101011100000000000000#32, 9⟩ = .ok (.mul 3 5 12) := by decide

theorem test_decode_sub : decode ⟨0b00011001111001110001000000000000#32, 9⟩ = .ok (.sub 14 7 1) := by decide

theorem test_decode_testbit : decode ⟨0b00100000000011010000000000000000#32, 9⟩ = .ok (.testbit 13 9) := by decide

theorem test_decode_setbit : decode ⟨0b00100001011100000000000000000000#32, 9⟩ = .ok (.setbit 7 9) := by decide

theorem test_decode_shl : decode ⟨0b00100010010010110000000000000000#32, 9⟩ = .ok (.shl 4 11 9) := by decide

theorem test_decode_divmod : decode ⟨0b00101000000100100100100000000000#32, 9⟩ = .ok (.divmod 1 8 2 4) := by decide

theorem test_decode_gcd : decode ⟨0b00101001100001000010000000000000#32, 9⟩ = .ok (.gcd 8 4 2) := by decide

theorem test_decode_rdcap : decode ⟨0b00110000000011100000000000000000#32, 9⟩ = .ok (.rdcap 14) := by decide

theorem test_decode_rddig : decode ⟨0b00110001000000010000000000000000#32, 9⟩ = .ok (.rddig 1 9) := by decide

/-- V99 -/
theorem test_decode_refuses_opcode_00 : decode ⟨0x00000000#32, 0⟩ = .error .reservedOpcode := by decide

/-- V100 -/
theorem test_decode_refuses_opcode_07 : decode ⟨0x07000000#32, 0⟩ = .error .reservedOpcode := by decide

/-- V101 -/
theorem test_decode_refuses_opcode_FF : decode ⟨0xFF000000#32, 0⟩ = .error .reservedOpcode := by decide

/-- V102 -/
theorem test_decode_refuses_reserved_bits : decode ⟨0x01300001#32, 0⟩ = .error .reservedBits := by decide

/-- V103 -/
theorem test_decode_refuses_init_rs1 : decode ⟨0x01310000#32, 0⟩ = .error .unusedField := by decide

/-- V104 -/
theorem test_decode_refuses_cmp_rd : decode ⟨0x08112000#32, 0⟩ = .error .unusedField := by decide

/-- V105 -/
theorem test_decode_refuses_set_rd2 : decode ⟨0x04120100#32, 0⟩ = .error .unusedField := by decide

/-- V91 -/
theorem test_decode_refuses_divmod_same : decode ⟨0x28312300#32, 0⟩ = .error .sameDestinations := by decide

theorem test_decode_table_word :
    decodeTableWord 32 0x28312400 = some (.divmod 3 4 1 2) ∧ decodeTableWord 32 0x28312300 = none := by decide

/-! ## One instruction, one step (the vectors of 95_test_vectors.md section 2) -/

/-- V1 -/
theorem test_init : runs [(3, [5#32, 1#32])] 0x01300000 0 (fun t => digitsOfReg t 3 == []) = true := by decide

/-- V3 -/
theorem test_enlarge_grows :
    runs [(1, [5#32])] 0x02100000 3 (fun t => digitsOfReg t 1 == [5#32, 0#32, 0#32]) = true := by decide

/-- V7 -/
theorem test_enlarge_faults :
    runs [(1, [5#32])] 0x02100000 9 (fun t => t.statusWord == 0x206#32 && t.fcmd == 0x02100000#32 && t.fimm == 9#32 && digitsOfReg t 1 == [5#32]) = true := by decide

/-- V10 -/
theorem test_compact :
    runs [(1, [7#32, 0#32, 3#32, 0#32, 0#32])] 0x03100000 0 (fun t => digitsOfReg t 1 == [7#32, 0#32, 3#32]) = true := by decide

/-- V9 -/
theorem test_compact_zero :
    runs [(1, [0#32, 0#32, 0#32])] 0x03100000 0 (fun t => digitsOfReg t 1 == []) = true := by decide

/-- V12 -/
theorem test_set_keeps_capacity :
    runs [(1, [1#32, 2#32, 3#32]), (2, [7#32])] 0x04120000 0 (fun t => digitsOfReg t 1 == [7#32, 0#32, 0#32]) = true := by decide

/-- V13 -/
theorem test_set_copies_capacity :
    runs [(2, [7#32, 0#32, 0#32, 0#32])] 0x04120000 0 (fun t => digitsOfReg t 1 == [7#32, 0#32, 0#32, 0#32]) = true := by decide

/-- V37 -/
theorem test_setw_two_digits :
    runs [] 0x05100000 0xFFFFFFFF (fun t => digitsOfReg t 1 == [0x7FFFFFFF#32, 1#32]) = true := by decide

/-- V38 -/
theorem test_setw_zero_fills :
    runs [(1, [1#32, 2#32, 3#32, 4#32, 5#32])] 0x05100000 7 (fun t => digitsOfReg t 1 == [7#32, 0#32, 0#32, 0#32, 0#32]) = true := by decide

/-- V17 -/
theorem test_dec_grows :
    runs [(1, [0x7FFFFFFF#32])] 0x06100000 0xA39 (fun t => digitsOfReg t 1 == [0x7FFFFFFF#32, 9#32]) = true := by decide

/-- V21 -/
theorem test_dec_checks_base_first :
    runs [(1, [12#32])] 0x06100000 0x1041 (fun t => t.statusWord == 0x702#32 && digitsOfReg t 1 == [12#32]) = true := by decide

/-- V61 -/
theorem test_cmp_ignores_trailing_zeros :
    runs [(1, [5#32, 0#32, 0#32]), (2, [5#32])] 0x08012000 0 (fun t => t.result == 0#32) = true := by decide

/-- V63 -/
theorem test_cmp_less :
    runs [(1, [0x7FFFFFFF#32]), (2, [0#32, 1#32])] 0x08012000 0 (fun t => t.result == 0xFFFFFFFF#32) = true := by decide

/-- V24 -/
theorem test_cmpw_greater :
    runs [(1, [0#32, 1#32])] 0x09010000 0x7FFFFFFF (fun t => t.result == 1#32) = true := by decide

/-- V26 -/
theorem test_cmpw_two_digit_word :
    runs [(1, [5#32])] 0x09010000 0x80000000 (fun t => t.result == 0xFFFFFFFF#32) = true := by decide

/-- V41 -/
theorem test_addw_ripples_in_place :
    runs [(1, [0x7FFFFFFF#32, 0x7FFFFFFF#32])] 0x10110000 1 (fun t => digitsOfReg t 1 == [0#32, 0#32, 1#32]) = true := by decide

/-- V40 -/
theorem test_addw_two_escaped_digits :
    runs [] 0x10210000 0x80000000 (fun t => digitsOfReg t 2 == [0#32, 1#32]) = true := by decide

/-- V46 -/
theorem test_mulw_two_escaped_digits :
    runs [(1, [0x7FFFFFFF#32])] 0x11210000 0xFFFFFFFF (fun t => digitsOfReg t 2 == [1#32, 0x7FFFFFFD#32, 1#32]) = true := by decide

/-- V47 -/
theorem test_mulw_by_zero_keeps_capacity :
    runs [(1, [5#32, 6#32, 7#32])] 0x11110000 0 (fun t => digitsOfReg t 1 == [0#32, 0#32, 0#32]) = true := by decide

/-- V54 -/
theorem test_mul_square_in_place :
    runs [(1, [0x7FFFFFFF#32, 0x7FFFFFFF#32])] 0x18111000 0 (fun t => digitsOfReg t 1 == [1#32, 0#32, 0x7FFFFFFE#32, 0x7FFFFFFF#32]) = true := by decide

/-- V55 -/
theorem test_mul_faults_capacity :
    runs [(1, [0#32, 0#32, 0#32, 0#32, 1#32]), (2, [0#32, 0#32, 0#32, 0#32, 1#32])] 0x18312000 0 (fun t => t.statusWord == 0x206#32 && digitsOfReg t 3 == []) = true := by decide

/-- V58 -/
theorem test_sub_borrows :
    runs [(1, [0#32, 1#32]), (2, [1#32])] 0x19312000 0 (fun t => digitsOfReg t 3 == [0x7FFFFFFF#32]) = true := by decide

/-- V56 -/
theorem test_sub_faults_negative :
    runs [(1, [5#32]), (2, [10#32])] 0x19312000 0 (fun t => t.statusWord == 0x302#32 && t.fcmd == 0x19312000#32 && digitsOfReg t 3 == []) = true := by decide

/-- V65 -/
theorem test_testbit_one :
    runs [(1, [0#32, 0#32, 1#32])] 0x20010000 62 (fun t => t.result == 1#32) = true := by decide

/-- V68 -/
theorem test_testbit_word_bit_31 :
    runs [(1, [0x40000000#32])] 0x20010000 31 (fun t => t.result == 0#32) = true := by decide

/-- V74 -/
theorem test_setbit_top :
    runs [] 0x21100000 247 (fun t => digitsOfReg t 1 == [0#32, 0#32, 0#32, 0#32, 0#32, 0#32, 0#32, 0x40000000#32]) = true := by decide

/-- V75 -/
theorem test_setbit_faults :
    runs [] 0x21100000 248 (fun t => t.statusWord == 0x206#32 && digitsOfReg t 1 == []) = true := by decide

/-- V78 -/
theorem test_shl_in_place :
    runs [(1, [0x7FFFFFFF#32])] 0x22110000 1 (fun t => digitsOfReg t 1 == [0x7FFFFFFE#32, 1#32]) = true := by decide

/-- V81 -/
theorem test_shl_zero_by_any_count :
    runs [] 0x22210000 0xFFFFFFFF (fun t => digitsOfReg t 2 == [] && t.statusWord == 0#32) = true := by decide

/-- V89 -/
theorem test_divmod_in_place :
    runs [(1, [10#32]), (2, [4#32])] 0x28112200 0 (fun t => digitsOfReg t 1 == [2#32] && digitsOfReg t 2 == [2#32]) = true := by decide

/-- V86 -/
theorem test_divmod_faults :
    runs [(1, [10#32]), (2, [0#32, 0#32])] 0x28312400 0 (fun t => t.statusWord == 0x402#32 && digitsOfReg t 3 == []) = true := by decide

/-- V92 -/
theorem test_gcd :
    runs [(1, [50#32]), (2, [30#32])] 0x29312000 0 (fun t => digitsOfReg t 3 == [10#32]) = true := by decide

/-- V94 -/
theorem test_gcd_faults :
    runs [(1, [0#32, 0#32]), (2, [30#32])] 0x29312000 0 (fun t => t.statusWord == 0x502#32 && digitsOfReg t 3 == []) = true := by decide

/-- V31 -/
theorem test_rdcap : runs [(5, [0#32, 0#32, 0#32, 0#32])] 0x30050000 0 (fun t => t.result == 4#32) = true := by decide

/-- V32 -/
theorem test_rddig : runs [(1, [0#32, 1#32])] 0x31010000 1 (fun t => t.result == 1#32) = true := by decide

/-- V34 -/
theorem test_rddig_beyond :
    runs [(1, [0x7FFFFFFF#32])] 0x31010000 0xFFFFFFFF (fun t => t.result == 0#32) = true := by decide

/-- V106 -/
theorem test_illegal_faults :
    runs [(1, [10#32]), (2, [4#32])] 0x28312401 0 (fun t => t.statusWord == 0x102#32 && t.fcmd == 0x28312401#32 && t.fimm == 0#32) = true := by decide

/-! ## The HOST protocol (95_test_vectors.md, H1 to H7; 20_memory.md R61, R64) -/

/-- The machine with the SETW M1 of H1 pending and these events to come. -/
def busyMachine (es : List Event) : State :=
  { State.reset with imm := 7, pending := some ⟨0x05100000#32, 7#32⟩, schedule := es }

/-- The machine of H4 after SUB has faulted NEGATIVE, with these events to come. -/
def faultedMachine (es : List Event) : State :=
  { machine [(1, [5#32, 0#32])] with
    imm := 5, fault := true, fcode := 3, fcmd := 0x19321000#32, fimm := 5, schedule := es }

/-- The machine of H5 after SETBIT has faulted CAPACITY, with these events to come. -/
def fatalMachine (es : List Event) : State :=
  { State.reset with
    imm := 300, fault := true, fatal := true, fcode := 2, fcmd := 0x21400000#32, fimm := 300, schedule := es }

/-- H1 -/
theorem test_cmd_write_sets_busy :
    gives (step ({ State.reset with imm := 7, schedule := [.hostWrite 32 0x00 0x05100000#32] })) (fun t => t.statusWord == 1#32 && t.pending == some ⟨0x05100000#32, 7#32⟩) = true := by decide

/-- H1: the operand was latched at the CMD write -/
theorem test_imm_write_keeps_pending :
    gives (step (busyMachine [.hostWrite 32 0x04 9#32, .coreTurn])) (fun t => t.imm == 9#32 && t.pending == some ⟨0x05100000#32, 7#32⟩) = true := by decide

/-- H2 -/
theorem test_cmd_write_while_busy_drops :
    gives (step (busyMachine [.hostWrite 32 0x00 0x05200000#32])) (fun t => t.statusWord == 9#32 && t.pending == some ⟨0x05100000#32, 7#32⟩) = true := by decide

/-- H1, H3 -/
theorem test_read_while_busy :
    gives (step (busyMachine [.hostRead 32 0x08])) (fun t => t.reads == [1#32]) = true := by decide

/-- H4 -/
theorem test_cmd_write_while_faulted_drops :
    gives (step (faultedMachine [.hostWrite 32 0x00 0x01100000#32])) (fun t => t.statusWord == 0x30A#32 && t.pending == none) = true := by decide

/-- H4 -/
theorem test_clear_keeps_record :
    gives (step (faultedMachine [.hostWrite 32 0x10 1#32])) (fun t => t.statusWord == 0#32 && t.fcmd == 0x19321000#32 && t.fimm == 5#32 && digitsOfReg t 1 == [5#32, 0#32]) = true := by decide

/-- H5 -/
theorem test_clear_keeps_fatal :
    gives (step (fatalMachine [.hostWrite 32 0x10 1#32])) (fun t => t.statusWord == 0x206#32) = true := by decide

/-- H5 -/
theorem test_soft_reset_clears_fatal :
    gives (step (fatalMachine [.hostWrite 32 0x10 2#32])) (fun t => t.statusWord == 0#32 && t.imm == 0#32 && t.fcmd == 0#32) = true := by decide

/-- H6 -/
theorem test_reset_abandons_pending :
    gives (step (busyMachine [.hostWrite 32 0x10 2#32])) (fun t => t.pending == none && t.imm == 0#32 && digitsOfReg t 1 == []) = true := by decide

/-- H7 -/
theorem test_soft_reset_wins_over_clear :
    gives (step (fatalMachine [.hostWrite 32 0x10 3#32])) (fun t => t.statusWord == 0#32) = true := by decide

/-- 10_state.md R35 with MAX_DIGITS = 8 -/
theorem test_params_reads_constant :
    gives (step ({ State.reset with schedule := [.hostRead 32 0x1C] })) (fun t => t.reads == [0x00000810#32]) = true := by decide

/-- 20_memory.md R64: a byte access is refused. -/
theorem test_byte_access_refused :
    step { State.reset with schedule := [.hostRead 8 0x04] } = .refused (.undefinedAccess 8 0x04) := rfl

/-- 20_memory.md R64: an unaligned access is refused. -/
theorem test_unaligned_access_refused :
    step { State.reset with schedule := [.hostWrite 32 0x06 0#32] } = .refused (.undefinedAccess 32 0x06) := rfl

/-- 20_memory.md R61: the window ends at offset 0x1F. -/
theorem test_access_outside_faults :
    step { State.reset with schedule := [.hostRead 32 0x20] } = .fault (.outsideWindow 0x20) := rfl

/-- The end state a schedule's run has from State.reset, and whether it ran cleanly. -/
def endsWith (es : List Event) (p : EndState → Bool) (clean : Bool) : Bool :=
  match State.runEnd { State.reset with schedule := es } with
  | some u => p u.endState && u.ranCleanly == clean
  | none => false

/-- 70_reset_and_hazards.md R283 with the SETW of H1: the end state is that at the poll that sees BUSY = 0, whatever the HOST
does later. -/
theorem test_run_ends_at_the_poll :
    endsWith [.hostWrite 32 0x04 7#32, .hostWrite 32 0x00 0x05100000#32, .hostRead 32 0x08, .coreTurn,
      .hostRead 32 0x08, .hostWrite 32 0x10 2#32] (fun e => e.regs[1] == ⟨[7#32, 0#32]⟩ && e.status == 0#32) true = true := by decide

/-- R283 with the word of V100: the run ends with FAULT = 1 and did not run cleanly. -/
theorem test_run_ends_with_the_fault :
    endsWith [.hostWrite 32 0x00 0x07000000#32, .coreTurn, .hostRead 32 0x08]
      (fun e => e.status == 0x102#32 && e.fcmd == 0x07000000#32) false = true := by decide

/-- R283: a poll that sees BUSY = 1 ends no run. -/
theorem test_run_has_no_end_while_busy : State.runEnd (busyMachine [.hostRead 32 0x08]) = none := by decide

/-- R283: a poll before the last command ends no run. -/
theorem test_run_goes_on_to_the_last_command :
    State.runEnd { State.reset with schedule := [.hostRead 32 0x08, .hostWrite 32 0x00 0x01100000#32] } = none := by decide

/-! ## The assembler (30_encoding.md R93, R94) -/

theorem test_assemble_divmod : assembleLine "DIVMOD M3, M4, M1, M2".toList = some [.divmod 3 4 1 2] := by decide

theorem test_assemble_refuses_same_destinations : assembleLine "DIVMOD M3, M3, M1, M2".toList = none := by decide

theorem test_assemble_dec_char : assembleLine "DEC M1, '3'".toList = some [.dec 1 0x00000A33#32] := by decide

theorem test_assemble_hex_immediate :
    assembleLine "SETW M15, #0xFFFFFFFF".toList = some [.setw 15 0xFFFFFFFF#32] := by decide

theorem test_assemble_refuses_wide_immediate : assembleLine "SETW M1, #4294967296".toList = none := by decide

theorem test_assemble_parse :
    assembleLine "PARSE M1, \"10\"".toList = some [.init 1, .dec 1 0x00000A31#32, .dec 1 0x00000A30#32] := by decide

theorem test_asm_line_gives_instruction_back : (asmLineOf (.shl 2 1 31)).assemble = some [.shl 2 1 31] := by decide

/-! ## Witnesses: for every statement with hypotheses, values that meet them, clause by clause -/

/-- M1 = 10, M2 = 4, M3 = 0 with capacity 2, M4 the greatest value, 2^248 - 1. -/
def sample : State :=
  machine [(1, [10#32]), (2, [4#32]), (3, [0#32, 0#32]), (4, List.replicate 8 0x7FFFFFFF#32)]

theorem sample_inv : sample.Inv := load_inv reset_inv (by decide)

/-- The sample with a command pending and these events to come. -/
def sampleBusy (c : Command) (es : List Event) : State := { sample with pending := some c, schedule := es }

/-- The sample with these events to come. -/
def sampleIdle (es : List Event) : State := { sample with schedule := es }

/-- The sample after a recoverable fault, with these events to come. -/
def sampleFaulted (es : List Event) : State := { sample.takeFault .negative with schedule := es }

/-- The sample after a CAPACITY fault, with these events to come. -/
def sampleFatal (es : List Event) : State := { sample.takeFault .capacity with schedule := es }

theorem sampleBusy_inv (c : Command) (es : List Event) : (sampleBusy c es).Inv :=
  have h := sample_inv
  ⟨h.config_legal, h.regs_fit, h.no_fault_code, h.fault_code, h.fatal_iff, fun _ => rfl⟩

theorem sampleIdle_inv (es : List Event) : (sampleIdle es).Inv :=
  have h := sample_inv
  ⟨h.config_legal, h.regs_fit, h.no_fault_code, h.fault_code, h.fatal_iff, h.pending_clean⟩

theorem sampleFaulted_inv (es : List Event) : (sampleFaulted es).Inv :=
  have h := sample_inv.takeFault .negative
  ⟨h.config_legal, h.regs_fit, h.no_fault_code, h.fault_code, h.fatal_iff, h.pending_clean⟩

theorem sampleFatal_inv (es : List Event) : (sampleFatal es).Inv :=
  have h := sample_inv.takeFault .capacity
  ⟨h.config_legal, h.regs_fit, h.no_fault_code, h.fault_code, h.fatal_iff, h.pending_clean⟩

/-! ### Encoding -/

theorem witness_DecodeEncodeGivesInstructionBack : Instr.wf (.divmod 15 0 15 0) = true := by decide

theorem witness_DecodedWordIsExactEncoding :
    decode ⟨0x28F0F000#32, 5⟩ = .ok (.divmod 15 0 0 15) ∧ decode ⟨0x10F00000#32, 5⟩ = .ok (.addw 15 0 5) := by decide

theorem witness_DecoderAgreesWithOpcodeMap :
    decode ⟨0x10F00000#32, 5⟩ = .ok (.addw 15 0 5) ∧
    (∃ r ∈ opcodeRows, r.matchesWord 0x28312300#32 = true ∧ r.mnemonic = "DIVMOD" ∧
      rdField 0x28312300#32 = rd2Field 0x28312300#32) := by decide

theorem witness_AtMostOneRowMatches : ∃ r ∈ opcodeRows, r.matchesWord 0x31010000#32 = true := by decide

/-- The bounds of every range of reserved opcodes; the CORE steps next with no event and with its turn scheduled. -/
theorem witness_ReservedOpcodeFaultsIllegal :
    (sampleBusy ⟨0, 0⟩ []).coreNext ∧ (sampleBusy ⟨0, 0⟩ [.coreTurn]).coreNext ∧
    ∀ op ∈ [0x00, 0x07, 0x0A, 0x0F, 0x12, 0x17, 0x1A, 0x1F, 0x23, 0x27, 0x2A, 0x2F, 0x32, 0xFF],
      (sampleBusy ⟨commandWord op 1 2 3 4, 5⟩ []).pending = some ⟨commandWord op 1 2 3 4, 5⟩ ∧
      opcodeField (commandWord op 1 2 3 4) = op := ⟨.inl rfl, .inr ⟨[], rfl⟩, by decide⟩

/-- A word of each kind. -/
theorem witness_EveryWordIsInstructionOrIllegal :
    (sampleBusy ⟨0x18312000#32, 0⟩ []).coreNext ∧ decode ⟨0x18312000#32, 0⟩ = .ok (.mul 3 1 2) ∧
    decode ⟨0x18312001#32, 0⟩ = .error .reservedBits := ⟨.inl rfl, by decide, by decide⟩

/-! ### Reset and steps -/

theorem witness_ResetSetsEveryPieceOfState :
    (sampleFatal [.platformReset]).schedule = [.platformReset] ∧
    Config.isReset (sampleFatal [.platformReset]).config .platformReset ∧
    Config.isReset (sampleBusy ⟨0, 0⟩ []).config (.hostWrite 32 0x10 3#32) :=
  ⟨rfl, .inl rfl, .inr ⟨3#32, by decide, rfl⟩⟩

theorem witness_StepKeepsInvariant :
    (sampleBusy ⟨0x18312000#32, 0⟩ []).Inv ∧ ∃ t, step (sampleBusy ⟨0x18312000#32, 0⟩ []) = .next t :=
  ⟨sampleBusy_inv _ _, _, rfl⟩

theorem witness_ParamsIsConstant :
    (sampleIdle [.hostRead 32 0x1C]).Inv ∧
    (sampleIdle [.hostRead 32 0x1C]).schedule
      = [.hostRead 32 ((sampleIdle [.hostRead 32 0x1C]).config.windowBase + 0x1C)] ∧
    (sampleIdle [.hostWrite 32 0x1C 9#32]).schedule
      = [.hostWrite 32 ((sampleIdle [.hostWrite 32 0x1C 9#32]).config.windowBase + 0x1C) 9#32] ∧
    ∃ t, step (sampleIdle [.hostRead 32 0x1C]) = .next t := ⟨sampleIdle_inv _, rfl, rfl, _, rfl⟩

theorem witness_StepExecutesPendingCommand :
    (sampleBusy ⟨0x18312000#32, 0⟩ []).schedule = [] ∧
    (sampleBusy ⟨0x18312000#32, 0⟩ [.coreTurn]).schedule = [.coreTurn] ∧
    decode ⟨0x18312000#32, 0⟩ = .ok (.mul 3 1 2) := by decide

theorem witness_IdleCoreChangesNothing : sample.pending = none ∧ sample.schedule = [] := by decide

/-- SUB M3, M2, M1 = 4 - 10. -/
theorem witness_OnlyCoreStepRaisesFaults :
    sample.fault = false ∧ gives (step (sampleBusy ⟨0x19321000#32, 0⟩ [])) (fun t => t.fault) = true := by decide

/-- A run of defined events; a read that ends a run; a run that has an end; a schedule that closes with the CORE's turn
and a read of STATUS. -/
theorem witness_RunReachesQuiescence :
    (∀ e ∈ [Config.writes ⟨8, 0⟩ .imm 7#32, .coreTurn, .platformReset, Config.reads ⟨8, 0⟩ .params],
      Config.definedEvent ⟨8, 0⟩ e) ∧
    (sampleIdle [Config.reads sample.config .status]).endsRun = true ∧
    (sampleIdle [Config.reads sample.config .status, Config.writes sample.config .cmd 7#32]).endsRun = false ∧
    (sampleBusy ⟨0, 0⟩ [Config.reads sample.config .status]).endsRun = false ∧
    (sampleIdle [.platformReset, Config.reads sample.config .status]).runEnd.isSome = true ∧
    (sampleIdle [Config.writes sample.config .cmd 7#32, .coreTurn, Config.reads sample.config .status]).schedule
      = [Config.writes sample.config .cmd 7#32]
        ++ [.coreTurn, Config.reads (sampleIdle []).config .status] := by
  refine ⟨fun e he => ?_, by decide, by decide, by decide, by decide, by decide⟩
  simp only [List.mem_cons, List.not_mem_nil, or_false] at he
  rcases he with rfl | rfl | rfl | rfl
  · exact ⟨rfl, .imm, rfl⟩
  · exact trivial
  · exact trivial
  · exact ⟨rfl, .params, rfl⟩

/-! ### The window -/

theorem witness_WindowReadsHaveNoSideEffect :
    ∀ r ∈ [WindowReg.cmd, .imm, .status, .result, .ctrl, .fcmd, .fimm, .params],
      (sampleIdle [Config.reads sample.config r]).schedule
        = [Config.reads (sampleIdle [Config.reads sample.config r]).config r] := by decide

theorem witness_ReadOnlyRegistersIgnoreWrites :
    ∀ r ∈ [WindowReg.status, .result, .fcmd, .fimm, .params],
      (sampleIdle [Config.writes sample.config r 1#32]).schedule
        = [Config.writes (sampleIdle [Config.writes sample.config r 1#32]).config r 1#32] ∧
      (r = .status ∨ r = .result ∨ r = .fcmd ∨ r = .fimm ∨ r = .params) := by decide

/-- The first and the last offset, and neighbours that are no register's. -/
theorem witness_OnlyAlignedWordAccessesStep :
    (sampleIdle [.hostRead 32 0x1C]).schedule = [.hostRead 32 (sample.config.windowBase + 0x1C)] ∧ 0x1C < 32 ∧
    0x1C % 4 = 0 ∧ ¬ (0x1F % 4 = 0) ∧ ¬ ((8 : Nat) = 32) ∧
    (sampleIdle [.hostWrite 32 0x1F 1#32]).schedule = [.hostWrite 32 (sample.config.windowBase + 0x1F) 1#32] := by decide

/-- The first address above the window, and one below it in a machine whose window stands elsewhere. -/
theorem witness_AccessOutsideWindowFaults :
    (sampleIdle [.hostRead 32 32]).config.windowBase + 32 ≤ 32 ∧
    0x3F < ({ sampleIdle [.hostWrite 32 0x3F 1#32] with config := ⟨8, 0x40⟩ } : State).config.windowBase := by decide

theorem witness_CmdWriteIsAcceptedOrDropped :
    (sampleIdle [Config.writes sample.config .cmd 1#32]).schedule
      = [Config.writes (sampleIdle [Config.writes sample.config .cmd 1#32]).config .cmd 1#32] ∧
    (sampleIdle []).busy = false ∧ (sampleIdle []).fault = false ∧ (sampleBusy ⟨0, 0⟩ []).busy = true ∧
    (sampleFaulted []).fault = true := by decide

theorem witness_ImmIsLatchedAtCmdWrite :
    (sampleIdle [Config.writes sample.config .cmd 1#32]).busy = false ∧
    (sampleIdle [Config.writes sample.config .cmd 1#32]).fault = false ∧
    (sampleBusy ⟨0, 0⟩ [Config.writes sample.config .imm 1#32]).schedule
      = [Config.writes (sampleBusy ⟨0, 0⟩ []).config .imm 1#32] := by decide

/-! ### Faults -/

/-- CLR alone, after a recoverable and after a FATAL fault; a CMD write then follows. -/
theorem witness_ClearReturnsFromFault :
    bitField 0x1#32 0 1 = 1 ∧ bitField 0x1#32 1 1 = 0 ∧ (sampleFaulted []).fatal = false ∧
    (sampleFatal []).fatal = true ∧ (sampleFaulted []).pending = none ∧
    gives (step (sampleFaulted [Config.writes sample.config .ctrl 1#32, Config.writes sample.config .cmd 7#32]))
      (fun t => !t.fault && t.schedule == [Config.writes t.config .cmd 7#32]) = true := by decide

theorem witness_FatalLastsUntilReset :
    (sampleFatal []).Inv ∧ (sampleFatal []).fatal = true ∧ (∃ t, step (sampleFatal []) = .next t) ∧
    Config.isClear (sampleFatal []).config (.hostWrite 32 0x10 1#32) ∧
    Config.isReset (sampleFatal []).config (.hostWrite 32 0x10 2#32) :=
  ⟨sampleFatal_inv _, rfl, ⟨_, rfl⟩, ⟨1#32, by decide, by decide, rfl⟩, .inr ⟨2#32, by decide, rfl⟩⟩

theorem witness_FirstFaultRecordIsKept :
    (sampleFaulted [Config.writes sample.config .cmd 7#32]).Inv ∧
    (sampleFaulted [Config.writes sample.config .cmd 7#32]).fault = true ∧
    (∃ t, step (sampleFaulted [Config.writes sample.config .cmd 7#32]) = .next t) ∧
    ¬ Config.isReset sample.config (Config.writes sample.config .cmd 7#32) ∧
    ¬ Config.isClear sample.config (Config.writes sample.config .cmd 7#32) := by
  refine ⟨sampleFaulted_inv _, rfl, ⟨_, rfl⟩, ?_, ?_⟩
  · rintro (h | ⟨w, -, h⟩) <;> simp [Config.writes, WindowReg.offset] at h
  · rintro ⟨w, -, -, h⟩
    simp [Config.writes, WindowReg.offset] at h

theorem witness_HostSeesOldValuesWhileBusy :
    (sampleBusy ⟨0, 0⟩ [Config.reads sample.config .result]).Inv ∧
    (sampleBusy ⟨0, 0⟩ [Config.reads sample.config .result]).busy = true ∧
    Config.reads sample.config .result ≠ .coreTurn ∧
    ¬ Config.isReset sample.config (Config.reads sample.config .result) ∧
    (∃ t, step (sampleBusy ⟨0, 0⟩ [Config.reads sample.config .result]) = .next t) := by
  refine ⟨sampleBusy_inv _ _, rfl, by decide, ?_, ⟨_, rfl⟩⟩
  rintro (h | ⟨w, -, h⟩) <;> simp [Config.reads, Config.writes] at h

theorem witness_FaultEntryChangesOnlyTheRecord :
    (sampleBusy ⟨0x19321000#32, 0⟩ []).pending = some ⟨0x19321000#32, 0⟩ ∧
    (sampleBusy ⟨0x19321000#32, 0⟩ []).fault = false ∧ (sampleBusy ⟨0x19321000#32, 0⟩ []).coreNext ∧
    gives (step (sampleBusy ⟨0x19321000#32, 0⟩ [])) (fun t => t.fault) = true := ⟨rfl, rfl, .inl rfl, by decide⟩

/-- One faulting command for each code a decoded command raises. -/
theorem witness_CommandsRaiseOnlyTheirFaults :
    sample.Inv ∧ sample.fault = false ∧
    gives (exec (.addw 5 4 1#32) sample) (fun t => t.fault && t.fcode == 2) = true ∧
    gives (exec (.sub 5 2 1) sample) (fun t => t.fault && t.fcode == 3) = true ∧
    gives (exec (.divmod 5 6 1 3) sample) (fun t => t.fault && t.fcode == 4) = true ∧
    gives (exec (.gcd 5 1 3) sample) (fun t => t.fault && t.fcode == 5) = true ∧
    gives (exec (.dec 1 0x00000A2F#32) sample) (fun t => t.fault && t.fcode == 6) = true ∧
    gives (exec (.dec 1 0x00000B30#32) sample) (fun t => t.fault && t.fcode == 7) = true :=
  ⟨sample_inv, rfl, by decide, by decide, by decide, by decide, by decide, by decide⟩

/-! ### Values -/

theorem witness_ValueIsSumOfDigitWeights : Mpr.empty.cap = 0 ∧ (⟨[5#32]⟩ : Mpr).cap ≤ 1 := by decide

/-- The greatest one-digit value and the least of two digits. -/
theorem witness_LenIsLeastDigitCount :
    2147483647 < 2 ^ (31 * 1) ∧ 2147483648 < 2 ^ (31 * 2) ∧ 2 ^ (32 - 1) ≤ 2147483648 ∧ 2147483648 < 2 ^ 32 ∧
    len 2147483648 = (32 + 30) / 31 ∧ len 2147483647 = (31 + 30) / 31 := by decide

/-- The greatest result that fits and the least that does not. -/
theorem witness_ResultWritesFollowTheirRules :
    sample.maxDigits = 8 ∧ max (max (sample.cap 1) 8) (len (2 ^ 248 - 1)) ≤ 8 ∧ 8 < max (max (sample.cap 1) 9) (len 0) ∧
    8 < len (2 ^ 248) ∧ len (2 ^ 248 - 1) ≤ 8 := by decide

/-! ### Instructions -/

theorem witness_EnlargeGrowsCapacity :
    sample.Inv ∧ (8#32).toNat ≤ sample.maxDigits ∧ sample.maxDigits < (9#32).toNat :=
  ⟨sample_inv, by decide, by decide⟩

/-- A canonical register and one that is not. -/
theorem witness_CompactGivesCanonicalForm :
    sample.Inv ∧ (sample.reg 1).canonical = true ∧ (sample.reg 3).canonical = false :=
  ⟨sample_inv, by decide, by decide⟩

theorem witness_SetCopiesRegister : sample.Inv ∧ (1 : Reg) = 1 := ⟨sample_inv, rfl⟩

/-- '0' and '9' fit, the characters beside them do not count, base 11, and 2^248 - 1 grows too long. -/
theorem witness_DecAppendsDecimalDigit :
    sample.Inv ∧ bitField 0x00000A30#32 8 24 = 10 ∧ bitField 0x00000A30#32 0 8 = 0x30 ∧
    bitField 0x00000A39#32 0 8 = 0x39 ∧ bitField 0x00000A2F#32 0 8 < 0x30 ∧ 0x39 < bitField 0x00000A3A#32 0 8 ∧
    bitField 0x00000B30#32 8 24 ≠ 10 ∧ len (sample.val 1 * 10 + (0x39 - 0x30)) ≤ sample.maxDigits ∧
    sample.maxDigits < len (sample.val 4 * 10 + (0x30 - 0x30)) :=
  ⟨sample_inv, by decide⟩

theorem witness_CmpwComparesValueWithWord :
    sample.Inv ∧ sample.val 1 < (11#32).toNat ∧ sample.val 1 = (10#32).toNat ∧ (9#32).toNat < sample.val 1 :=
  ⟨sample_inv, by decide, by decide, by decide⟩

theorem witness_RdcapReturnsCapacity : sample.Inv ∧ sample.cap 4 = sample.maxDigits := ⟨sample_inv, by decide⟩

theorem witness_RddigReturnsDigit :
    sample.Inv ∧ (7#32).toNat < sample.cap 4 ∧ ¬ (8#32).toNat < sample.cap 4 := ⟨sample_inv, by decide, by decide⟩

theorem witness_SetwSetsWord : sample.Inv ∧ (0xFFFFFFFF#32).toNat = 4294967295 := ⟨sample_inv, by decide⟩

theorem witness_AddwAddsWord :
    sample.Inv ∧ len (sample.val 4 + (0#32).toNat) ≤ sample.maxDigits ∧
    sample.maxDigits < len (sample.val 4 + (1#32).toNat) := ⟨sample_inv, by decide, by decide⟩

theorem witness_MulwMultipliesByWord :
    sample.Inv ∧ len (sample.val 4 * (1#32).toNat) ≤ sample.maxDigits ∧
    sample.maxDigits < len (sample.val 4 * (2#32).toNat) := ⟨sample_inv, by decide, by decide⟩

theorem witness_MulMultipliesValues :
    sample.Inv ∧ len (sample.val 1 * sample.val 2) ≤ sample.maxDigits ∧
    sample.maxDigits < len (sample.val 4 * sample.val 2) := ⟨sample_inv, by decide, by decide⟩

theorem witness_SubSubtractsOrFaultsNegative :
    sample.Inv ∧ sample.val 2 ≤ sample.val 1 ∧ sample.val 1 ≤ sample.val 1 ∧ sample.val 2 < sample.val 1 :=
  ⟨sample_inv, by decide, by decide, by decide⟩

theorem witness_CmpComparesValues :
    sample.Inv ∧ sample.val 2 < sample.val 1 ∧ sample.val 3 = sample.val 0 := ⟨sample_inv, by decide, by decide⟩

theorem witness_CmpSwapNegatesResult :
    sample.Inv ∧ (∃ t, exec (.cmp 1 2) sample = .next t) ∧ ∃ u, exec (.cmp 2 1) sample = .next u :=
  ⟨sample_inv, ⟨_, rfl⟩, ⟨_, rfl⟩⟩

theorem witness_MulIsCommutative : sample.Inv := sample_inv

/-- The top bit of the register and the first index above it. -/
theorem witness_TestbitReturnsBit :
    sample.Inv ∧ (sample.val 4).testBit (247#32).toNat = true ∧ 31 * sample.cap 4 ≤ (248#32).toNat :=
  ⟨sample_inv, by decide, by decide⟩

theorem witness_SetbitSetsBit :
    sample.Inv ∧ (247#32).toNat / 31 + 1 ≤ sample.maxDigits ∧ sample.maxDigits < (248#32).toNat / 31 + 1 ∧
    (sample.reg 1).canonical = true ∧ (sample.val 1).testBit (1#32).toNat = true :=
  ⟨sample_inv, by decide, by decide, by decide, by decide⟩

theorem witness_ShlMultipliesByPowerOfTwo :
    sample.Inv ∧ len (sample.val 2 * 2 ^ (245#32).toNat) ≤ sample.maxDigits ∧
    sample.maxDigits < len (sample.val 2 * 2 ^ (246#32).toNat) ∧ sample.val 3 = 0 :=
  ⟨sample_inv, by decide, by decide, by decide⟩

theorem witness_DivmodDividesOrFaultsDivzero :
    sample.Inv ∧ (3 : Reg) = 3 ∧ (3 : Reg) ≠ 4 ∧ sample.val 2 ≠ 0 ∧ sample.val 3 = 0 :=
  ⟨sample_inv, rfl, by decide, by decide, by decide⟩

/-- The least divisor: M3 set to 1. -/
theorem witness_DivmodPairIsUnique :
    (machine [(1, [10#32]), (3, [1#32])]).Inv ∧ (3 : Reg) ≠ 4 ∧ 1 ≤ (machine [(1, [10#32]), (3, [1#32])]).val 3 :=
  ⟨load_inv reset_inv (by decide), by decide, by decide⟩

theorem witness_GcdGivesGreatestCommonDivisor :
    sample.Inv ∧ sample.val 1 ≠ 0 ∧ sample.val 2 ≠ 0 ∧ sample.val 3 = 0 :=
  ⟨sample_inv, by decide, by decide, by decide⟩

/-- a mod b = 2 with (10, 4), and (4, 2) in the second machine; a mod b = 0 with (4, 4). -/
theorem witness_GcdObeysEuclidLaws :
    sample.Inv ∧ sample.val 1 ≠ 0 ∧ sample.val 2 ≠ 0 ∧ (∃ t, exec (.gcd 5 1 2) sample = .next t) ∧
    sample.val 1 % sample.val 2 ≠ 0 ∧ sample.val 2 % sample.val 2 = 0 ∧
    (machine [(1, [4#32]), (2, [2#32])]).Inv ∧
    (machine [(1, [4#32]), (2, [2#32])]).val 1 = sample.val 2 ∧
    (machine [(1, [4#32]), (2, [2#32])]).val 2 = sample.val 1 % sample.val 2 ∧
    ∃ t, exec (.gcd 5 1 2) (machine [(1, [4#32]), (2, [2#32])]) = .next t :=
  ⟨sample_inv, by decide, by decide, ⟨_, rfl⟩, by decide, by decide, load_inv reset_inv (by decide), by decide,
    by decide, ⟨_, rfl⟩⟩

/-! ### The host's protocol -/

/-- With and without an operand, with no poll and with two. -/
theorem witness_IssueRunsOneCommand :
    Instr.wf (.shl 2 1 31) = true ∧ sample.pending = none ∧ sample.fault = false ∧
    (sampleIdle (Config.issue sample.config (.shl 2 1 31) 2)).schedule
      = Config.issue sample.config (.shl 2 1 31) 2 ++ [] ∧
    (sampleIdle (Config.issue sample.config (.init 2) 0 ++ [Config.reads sample.config .result])).schedule
      = Config.issue sample.config (.init 2) 0 ++ [Config.reads sample.config .result] := by decide

/-- "90" with a different number of polls for each command; then "9" and a character on each side of the digits; then
the empty string. -/
theorem witness_ParseGivesDecimalValue :
    let nine : Instr × Nat := (.dec 5 (decOperand 0x39#8), 2)
    let good : List (Instr × Nat) := [(.init 5, 0), nine, (.dec 5 (decOperand 0x30#8), 1)]
    let below : List (Instr × Nat) := [(.init 5, 1), nine, (.dec 5 (decOperand 0x2F#8), 0)]
    let above : List (Instr × Nat) := [(.init 5, 0), nine, (.dec 5 (decOperand 0x3A#8), 3)]
    (∀ program : List (Instr × Nat), (sampleIdle (Config.issueAll sample.config program)).Inv) ∧
    sample.pending = none ∧ sample.fault = false ∧ allDigits [0x39#8, 0x30#8] = true ∧ allDigits [] = true ∧
    len (decimalValue [0x39#8, 0x30#8]) ≤ sample.maxDigits ∧
    good.map Prod.fst = Pseudo.expand (.parse 5 [0x39#8, 0x30#8]) ∧
    below.map Prod.fst = Pseudo.expand (.parse 5 ([0x39#8] ++ [0x2F#8])) ∧ (0x2F#8).toNat < 0x30 ∧
    above.map Prod.fst = Pseudo.expand (.parse 5 ([0x39#8] ++ [0x3A#8])) ∧ 0x39 < (0x3A#8).toNat ∧
    [((.init 5 : Instr), 4)].map Prod.fst = Pseudo.expand (.parse 5 []) :=
  ⟨fun _ => sampleIdle_inv _, by decide, by decide, by decide, by decide, by decide, by decide, by decide, by decide,
    by decide, by decide, by decide⟩

theorem witness_DecEqualsMulwThenAddw :
    sample.Inv ∧ 0x30 ≤ (0x30#8).toNat ∧ (0x39#8).toNat ≤ 0x39 ∧
    len (sample.val 1 * 10 + ((0x39#8).toNat - 0x30)) ≤ sample.maxDigits ∧
    ∃ t, exec (.dec 1 (decOperand 0x39#8)) sample = .next t :=
  ⟨sample_inv, by decide, by decide, by decide, ⟨_, rfl⟩⟩

end Sys2Proof.Tests
end

section
/-! SUPPORT. The invariant along a step: the schedule does not matter to it, and each kind of event keeps it. -/

namespace Sys2Proof.Machine

/-- The invariant does not speak of what is still to come. -/
theorem State.Inv.withSchedule {s : State} (h : s.Inv) (events : List Event) : State.Inv { s with schedule := events } :=
  ⟨h.config_legal, h.regs_fit, h.no_fault_code, h.fault_code, h.fatal_iff, h.pending_clean⟩

/-- A HOST read changes only the log of reads (20_memory.md R65). -/
theorem State.Inv.hostRead {s : State} (h : s.Inv) (r : WindowReg) : (s.hostRead r).Inv :=
  ⟨h.config_legal, h.regs_fit, h.no_fault_code, h.fault_code, h.fatal_iff, h.pending_clean⟩

/-- A CORE step is idle, takes a fault, or commits results that keep the invariant (10_state.md R39). -/
theorem State.Inv.coreStep {s t : State} (h : s.Inv) (ht : s.coreStep = .next t) : t.Inv := by
  rcases s.coreStep_cases with ⟨-, idle⟩ | ⟨_, -, ⟨code, faults⟩ | ⟨i, u, -, commits, completes⟩⟩
  · cases idle.symm.trans ht
    exact h
  · cases faults.symm.trans ht
    exact h.takeFault code
  · cases completes.symm.trans ht
    exact (commits.inv h).complete

/-- Settles O11: whatever the step takes from the schedule, a CORE step, a HOST access or a reset keeps the invariant. -/
theorem stepKeepsInvariant : Obligations.StepKeepsInvariant := by
  intro s t hs hst
  rcases step_cases hst with ⟨-, rest, hcore, -⟩ | ⟨r, rest, -, rfl⟩ | ⟨r, w, rest, -, rfl⟩ | ⟨rest, -, rfl⟩
  · exact (hs.withSchedule rest).coreStep hcore
  · exact (hs.withSchedule rest).hostRead r
  · exact (hs.withSchedule rest).writeWindow r w
  · exact (hs.withSchedule rest).resetCore

end Sys2Proof.Machine
end

section
/-! SUPPORT. The words the HOST reads as STATUS and PARAMS (10_state.md R31, R35), as numbers, and their fields. -/

namespace Sys2Proof.Machine

/-- Of two fields side by side, the upper one has the weight of the lower one's width. -/
theorem toNat_append_eq_add {m n : Nat} (x : BitVec m) (y : BitVec n) :
    (x ++ y).toNat = x.toNat * 2 ^ n + y.toNat := by
  rw [BitVec.toNat_append, ← Nat.shiftLeft_add_eq_or_of_lt y.isLt, Nat.shiftLeft_eq]

theorem State.statusWord_toNat (s : State) :
    s.statusWord.toNat = s.fcode.toNat * 2 ^ 8 + s.drop.toNat * 2 ^ 3 + s.fatal.toNat * 2 ^ 2 + s.fault.toNat * 2
      + s.busy.toNat := by
  simp only [State.statusWord, toNat_append_eq_add, BitVec.toNat_ofBool, BitVec.toNat_ofNat]
  omega

theorem State.paramsWord_toNat (s : State) : s.paramsWord.toNat = s.maxDigits % 2 ^ 24 * 2 ^ 8 + 16 := by
  simp only [State.paramsWord, toNat_append_eq_add, BitVec.toNat_ofNat]

/-- PARAMS is made of the parameters alone. -/
theorem State.paramsWord_eq_of_config {s t : State} (h : t.config = s.config) : t.paramsWord = s.paramsWord := by
  simp only [State.paramsWord, State.maxDigits, h]

/-- Settles O19: each field is cut out of the number the word is, a flag being less than 2 and FCODE less than 256. -/
theorem statusWordHoldsFields : Obligations.StatusWordHoldsFields := by
  intro s
  have hcode := s.fcode.isLt
  have hbusy := s.busy.toNat_lt
  have hfault := s.fault.toNat_lt
  have hfatal := s.fatal.toNat_lt
  have hdrop := s.drop.toNat_lt
  have flag (b : Bool) : (if b = true then 1 else 0) = b.toNat := by cases b <;> rfl
  rw [← State.busy]
  simp only [flag, bitField, s.statusWord_toNat]
  omega

/-- STATUS of a quiescent core reads BUSY = 0 (70_reset_and_hazards.md R283). -/
theorem State.statusWord_busy_of_quiescent {s : State} (h : s.quiescent = true) : bitField s.statusWord 0 1 = 0 := by
  have hidle : s.pending.isSome = false := by simpa [State.quiescent, State.busy] using h
  simpa [hidle] using (statusWordHoldsFields s).1

end Sys2Proof.Machine
end

section
/-! SUPPORT. Reset (10_state.md R44, 70_reset_and_hazards.md R272, R280): the reset values, and that either source of a
reset sets them. -/

namespace Sys2Proof.Machine

theorem State.statusWord_resetWith (c : Config) (es : List Event) (ws : List Word) :
    (State.resetWith c es ws).statusWord = 0 := by
  simp [State.statusWord, State.resetWith, State.busy]

theorem State.resetWith_cap_val (c : Config) (es : List Event) (ws : List Word) (i : Reg) :
    (State.resetWith c es ws).cap i = 0 ∧ (State.resetWith c es ws).val i = 0 := by
  simp [State.cap, State.val]

/-- Settles O8: State.reset holds the reset values of R44, and its parameters are Config.standard. -/
theorem resetStateHoldsResetValues : Obligations.ResetStateHoldsResetValues :=
  ⟨State.resetWith_cap_val _ _ _, rfl, rfl, State.statusWord_resetWith .., rfl, rfl, rfl, by decide⟩

/-- Settles O10: a freshly reset machine meets the invariant, and the standard parameters are legal. -/
theorem resetStateMeetsInvariant : Obligations.ResetStateMeetsInvariant :=
  State.Inv.resetWith (by decide) [] []

/-- SRESET wins over CLR (10_state.md R32). -/
theorem State.writeCtrl_sreset (s : State) {w : Word} (h : bitField w 1 1 = 1) : s.writeCtrl w = s.resetCore := if_pos h

/-- A reset from either source is a step that resets the core, busy or not (70_reset_and_hazards.md R271, R280). -/
theorem step_reset {s : State} {e : Event} {rest : List Event} (hs : s.schedule = e :: rest)
    (he : Config.isReset s.config e) : step s = .next (State.resetCore { s with schedule := rest }) := by
  rcases he with rfl | ⟨w, hw, rfl⟩
  · exact step_cons hs
  · rw [step_write hs]
    exact congrArg _ (State.writeCtrl_sreset _ hw)

/-- Settles O9: the step of either reset source is resetCore, which sets every field. -/
theorem resetSetsEveryPieceOfState : Obligations.ResetSetsEveryPieceOfState := by
  intro s e rest hs he
  exact ⟨_, step_reset hs he, State.resetWith_cap_val _ _ _, rfl, rfl, State.statusWord_resetWith .., rfl, rfl, rfl,
    rfl, rfl, rfl, rfl, State.paramsWord_eq_of_config rfl⟩

/-- Settles O12: MAX_DIGITS fits in 24 bits, PARAMS is a read-only register, and no step changes the parameters. -/
theorem paramsIsConstant : Obligations.ParamsIsConstant := by
  intro s hs
  have hmax : s.maxDigits ≤ 16777215 := hs.config_legal.2
  refine ⟨?_, ?_, fun rest h => step_read (r := .params) h, fun w rest h => step_write (r := .params) h, fun t ht => ?_⟩
  · rw [bitField, s.paramsWord_toNat]; omega
  · rw [bitField, s.paramsWord_toNat]; omega
  · have hc := (step_takes_event ht).2
    exact ⟨State.paramsWord_eq_of_config hc, hc⟩

end Sys2Proof.Machine
end

section
/-! SUPPORT. The CORE's turn (10_state.md R39): what it does with a pending command, what an idle core does, and what a
command may change (R43). -/

namespace Sys2Proof.Machine

theorem State.coreStep_idle {s : State} (h : s.pending = none) : s.coreStep = .next s := by
  simp [State.coreStep, h]

theorem State.coreStep_decoded {s : State} {c : Command} {i : Instr} (hp : s.pending = some c) (hd : decode c = .ok i) :
    s.coreStep = exec i s := by
  simp [State.coreStep, hp, hd]

/-- Settles O13: with the turn scheduled or nothing scheduled, the step is the CORE step. -/
theorem stepExecutesPendingCommand : Obligations.StepExecutesPendingCommand := by
  intro s c i hp hd
  refine ⟨fun hs => ?_, fun rest hs => ?_⟩
  · rw [step_nil hs, State.coreStep_decoded hp hd]
  · rw [step_cons hs]
    exact State.coreStep_decoded hp hd

/-- Settles O14: the same two steps with nothing pending. -/
theorem idleCoreChangesNothing : Obligations.IdleCoreChangesNothing := by
  intro s hp
  refine ⟨fun hs => ?_, fun rest hs => ?_⟩
  · rw [step_nil hs, State.coreStep_idle hp]
  · rw [step_cons hs]
    exact State.coreStep_idle hp

/-- Settles O30: a command takes a fault, which writes only the record, or commits results, which touch only its
destinations and RESULT. -/
theorem commandChangesOnlyItsDestinations : Obligations.CommandChangesOnlyItsDestinations := by
  intro i s
  rcases exec_cases i s with ⟨code, faults⟩ | ⟨t, commits, completes⟩
  · exact ⟨_, faults, rfl, fun _ _ => rfl, fun _ => rfl, rfl, rfl, rfl, rfl, rfl, .inr ⟨rfl, rfl, rfl⟩⟩
  · refine ⟨_, completes, rfl, commits.regs, commits.result, ?_⟩
    rw [commits.others]
    exact ⟨rfl, rfl, rfl, rfl, rfl, .inl ⟨rfl, rfl, rfl, rfl, rfl⟩⟩

end Sys2Proof.Machine
end

section
/-! SUPPORT. Values, digit counts and the result writes (10_state.md R24, R25, R27, R28). -/

namespace Sys2Proof.Machine

/-- Settles O32: the sum form of a digit sequence's value, over the digits of the register. -/
theorem valueIsSumOfDigitWeights : Obligations.ValueIsSumOfDigitWeights := by
  have hsum (m : Mpr) : m.val = ∑ j ∈ Finset.range m.cap, m.digit j * 2 ^ (31 * j) := by
    rw [Mpr.val, digitsValue_eq_sum, Mpr.length_nats]
    rfl
  refine ⟨hsum, fun m hm => ?_, fun m j => Mpr.digit_of_cap_le⟩
  rw [hsum, hm, Finset.sum_range_zero]

theorem lt_two_pow_iff_len_le {v n : Nat} : v < 2 ^ (31 * n) ↔ len v ≤ n := by
  rw [len_le_iff, radix_pow]

/-- The length of a value of b bits is ceil(b / 31) (R25). -/
theorem len_eq_of_bits {v b : Nat} (hv : v ≠ 0) (hle : 2 ^ (b - 1) ≤ v) (hlt : v < 2 ^ b) : len v = (b + 30) / 31 := by
  have hlog : v.log2 < b := (Nat.log2_lt hv).2 hlt
  have hlog' : b - 1 ≤ v.log2 := (Nat.le_log2 hv).2 hle
  rw [len, if_neg hv]
  omega

/-- Digit j of digits(v, n) is a 31-bit slice of v (R25). -/
theorem Mpr.digit_ofValue {n j : Nat} (v : Nat) (h : j < n) :
    (Mpr.ofValue v n).digit j = (v >>> (31 * j)) &&& 0x7FFFFFFF := by
  rw [Mpr.digit, Mpr.nats_ofValue, digitsOf_getD, if_pos h, Nat.shiftRight_eq_div_pow, radix_pow]
  exact (Nat.and_two_pow_sub_one_eq_mod _ 31).symm

/-- Settles O33: len(v) by its characterisation as the least digit count, and the digits of digits(v, n) as slices. -/
theorem lenIsLeastDigitCount : Obligations.LenIsLeastDigitCount :=
  ⟨len_zero, fun v => ⟨lt_two_pow_iff_len_le.2 le_rfl, fun _ => lt_two_pow_iff_len_le.1, fun _ => len_eq_of_bits,
    fun _ _ _ => Mpr.digit_ofValue v⟩⟩

/-- No digit of a written value stands at or above the value's length (R27). -/
theorem Mpr.digit_ofValue_of_len_le {v n j : Nat} (hn : len v ≤ n) (hj : len v ≤ j) : (Mpr.ofValue v n).digit j = 0 := by
  rw [(Mpr.fits_ofValue (le_refl n)).digit_eq, Mpr.val_ofValue hn, Nat.div_eq_of_lt (len_le_iff.1 hj), Nat.zero_mod]

/-- Settles O34: each write by the equation that says when it raises CAPACITY and which register it sets otherwise. -/
theorem resultWritesFollowTheirRules : Obligations.ResultWritesFollowTheirRules := by
  intro s i v k
  refine ⟨fun h => ?_, fun h => ?_, s.writeCompact_capacity i, fun h => ?_⟩
  · rw [s.writeKeep_eq, if_pos h]
  · have hlen : len v ≤ max (max (s.cap i) k) (len v) := le_max_right _ _
    refine ⟨_, by rw [s.writeKeep_eq, if_neg (not_lt.2 h)], ?_, ?_, fun j hj => ?_, fun j hj => s.reg_setReg_ne hj _⟩
    · simp [State.cap]
    · simp [State.val, Mpr.val_ofValue]
    · rw [State.reg_setReg_self, Mpr.digit_ofValue_of_len_le hlen hj]
  · refine ⟨_, s.writeCompact_ok i h, ?_, ?_, ?_, fun j hj => s.reg_setReg_ne hj _⟩
    · simp [State.cap]
    · simp [State.val, Mpr.val_ofValue]
    · rw [State.reg_setReg_self, Mpr.canonical_ofValue_len]

end Sys2Proof.Machine
end

section
/-! SUPPORT. Runs of defined accesses, and the end of a run (70_reset_and_hazards.md R281, R283): the search for the end
finds the first state along the run that a read ends. -/

namespace Sys2Proof.Machine

/-! ## Defined events step (20_memory.md R64, R65) -/

/-- The CORE's turn always gives a next state. -/
theorem State.coreStep_next (s : State) : ∃ t, s.coreStep = .next t := by
  rcases s.coreStep_cases with ⟨-, idle⟩ | ⟨_, -, ⟨_, faults⟩ | ⟨_, _, -, -, completes⟩⟩
  exacts [⟨_, idle⟩, ⟨_, faults⟩, ⟨_, completes⟩]

/-- The CORE's turn, scheduled or not, leaves the core quiescent (10_state.md R39). -/
theorem step_coreNext_quiescent {s : State} (h : s.coreNext) :
    ∃ t, step s = .next t ∧ t.schedule = s.schedule.tail ∧ t.config = s.config ∧ t.quiescent = true := by
  obtain ⟨t, ht⟩ := State.coreStep_next { s with schedule := s.schedule.tail }
  obtain ⟨hsched, hconf, hpend⟩ := State.coreStep_leaves ht
  exact ⟨t, (step_coreNext h).trans ht, hsched, hconf, by simp [State.quiescent, State.busy, hpend]⟩

theorem step_defined {s : State} {e : Event} {rest : List Event} (hs : s.schedule = e :: rest)
    (he : Config.definedEvent s.config e) : ∃ t, step s = .next t := by
  cases e with
  | hostRead width addr => obtain ⟨rfl, r, rfl⟩ := he; exact ⟨_, step_read hs⟩
  | hostWrite width addr w => obtain ⟨rfl, r, rfl⟩ := he; exact ⟨_, step_write hs⟩
  | platformReset => exact ⟨_, step_cons hs⟩
  | coreTurn =>
    obtain ⟨t, ht, -⟩ := step_coreNext_quiescent (.inr ⟨rest, hs⟩)
    exact ⟨t, ht⟩

/-- One step per defined event takes exactly those events from the schedule. -/
theorem runFor_defined {s : State} {es rest : List Event} (hs : s.schedule = es ++ rest)
    (hdef : ∀ e ∈ es, Config.definedEvent s.config e) :
    ∃ t, runFor es.length s = .next t ∧ t.schedule = rest ∧ t.config = s.config := by
  induction es generalizing s with
  | nil => exact ⟨s, rfl, hs, rfl⟩
  | cons e es ih =>
    obtain ⟨t, ht⟩ := step_defined hs (hdef e (by simp))
    obtain ⟨hsched, hconf⟩ := step_takes_event ht
    obtain ⟨u, hu, husched, huconf⟩ := ih (s := t) (by rw [hsched, hs]; rfl)
      (fun x hx => hconf ▸ hdef x (by simp [hx]))
    exact ⟨u, by rw [List.length_cons, runFor_succ_of_next ht, hu], husched, huconf.trans hconf⟩

/-- A run goes on by the step from its last state. -/
theorem runFor_succ_of_runFor {n : Nat} {s t u : State} (h : runFor n s = .next t) (hs : step t = .next u) :
    runFor (n + 1) s = .next u := by
  rw [runFor_add h, runFor_succ_of_next hs, runFor_zero]

/-- Each step of a run takes one event from the schedule. -/
theorem runFor_schedule {n : Nat} {s t : State} (h : runFor n s = .next t) : t.schedule = s.schedule.drop n := by
  induction n generalizing s with
  | zero => cases h; rfl
  | succ n ih =>
    cases hs : step s with
    | next u =>
      rw [runFor_succ_of_next hs] at h
      rw [ih h, (step_takes_event hs).1, List.drop_tail]
    | fault r => exact absurd h (runFor_succ_ne (by simp [hs]) n t)
    | refused r => exact absurd h (runFor_succ_ne (by simp [hs]) n t)

/-! ## The end of a run (70_reset_and_hazards.md R283) -/

/-- A read of STATUS ends a run exactly when the core is quiescent and no write to CMD is still to come. -/
theorem State.endsRun_iff (u : State) :
    u.endsRun = true ↔ ∃ rest, u.schedule = Config.reads u.config .status :: rest ∧ u.quiescent = true ∧
      ∀ w : Word, Config.writes u.config .cmd w ∉ rest := by
  have hsubmits (rest : List Event) :
      rest.any (Config.submits u.config) = false ↔ ∀ w : Word, Config.writes u.config .cmd w ∉ rest := by
    simp only [List.any_eq_false, Config.submits_iff]
    exact ⟨fun h w hw => h _ hw ⟨w, rfl⟩, fun h e he ⟨w, hw⟩ => h w (hw ▸ he)⟩
  cases hs : u.schedule with
  | nil => simp [State.endsRun_nil hs]
  | cons e rest => simp [State.endsRun_cons hs, ← hsubmits, and_assoc]

/-- The run from s ends at u after n steps: u is the first state along it that a read ends. -/
def State.EndsAt (s : State) (n : Nat) (u : State) : Prop :=
  runFor n s = .next u ∧ u.endsRun = true ∧ ∀ m < n, ∀ v, runFor m s = .next v → v.endsRun = false

theorem State.endsAt_zero {s u : State} : s.EndsAt 0 u ↔ s = u ∧ u.endsRun = true := by
  simp [State.EndsAt, runFor_zero]

/-- Where a read ends the run at once, the run ends there. -/
theorem State.endsAt_of_endsRun {s u : State} (h : s.endsRun = true) {n : Nat} : s.EndsAt n u ↔ n = 0 ∧ s = u := by
  cases n with
  | zero => simpa [State.endsAt_zero] using fun hu : s = u => hu ▸ h
  | succ n =>
    refine iff_of_false (fun ⟨_, _, hfirst⟩ => ?_) (by simp)
    simp [hfirst 0 n.succ_pos s (runFor_zero s)] at h

/-- Where no read ends the run at once, its end is that of the run from the next state. -/
theorem State.endsAt_succ {s t : State} (h : s.endsRun = false) (hs : step s = .next t) {n : Nat} {u : State} :
    s.EndsAt (n + 1) u ↔ t.EndsAt n u := by
  simp only [State.EndsAt, runFor_succ_of_next hs]
  refine and_congr_right fun _ => and_congr_right fun _ => ⟨fun hfirst m hm v hv => ?_, fun hfirst m hm v hv => ?_⟩
  · exact hfirst (m + 1) (by omega) v (by rwa [runFor_succ_of_next hs])
  · cases m with
    | zero => cases hv; exact h
    | succ m => exact hfirst m (by omega) v (by rwa [runFor_succ_of_next hs] at hv)

theorem State.not_endsAt_zero {s u : State} (h : s.endsRun = false) : ¬ s.EndsAt 0 u := by
  rw [State.endsAt_zero]
  rintro ⟨rfl, hu⟩
  simp [h] at hu

/-- Where the machine stops before a read ends the run, the run has no end. -/
theorem State.not_endsAt_of_stopped {s : State} (h : s.endsRun = false) (hs : ∀ t, step s ≠ .next t) (n : Nat)
    (u : State) : ¬ s.EndsAt n u := by
  cases n with
  | zero => exact State.not_endsAt_zero h
  | succ n => exact fun hu => runFor_succ_ne hs n u hu.1

/-- The search for the end of a run, within k steps, follows the run. -/
theorem runEndWithin_eq_some_iff {k : Nat} {s u : State} : runEndWithin k s = some u ↔ ∃ n ≤ k, s.EndsAt n u := by
  induction k generalizing s with
  | zero =>
    cases hend : s.endsRun with
    | true => simp [runEndWithin_of_endsRun hend, State.endsAt_of_endsRun hend]
    | false => simp [runEndWithin, hend, State.not_endsAt_zero hend]
  | succ k ih =>
    cases hend : s.endsRun with
    | true => simp [runEndWithin_of_endsRun hend, State.endsAt_of_endsRun hend]
    | false =>
      by_cases hstep : ∃ t, step s = .next t
      · obtain ⟨t, ht⟩ := hstep
        rw [runEndWithin_succ_of_next hend ht, ih]
        refine ⟨fun ⟨n, hn, h⟩ => ⟨n + 1, by omega, (State.endsAt_succ hend ht).2 h⟩, fun ⟨n, hn, h⟩ => ?_⟩
        cases n with
        | zero => exact absurd h (State.not_endsAt_zero hend)
        | succ n => exact ⟨n, by omega, (State.endsAt_succ hend ht).1 h⟩
      · have hstop : ∀ t, step s ≠ .next t := not_exists.1 hstep
        rw [runEndWithin_succ_stopped hend hstop]
        exact iff_of_false (by simp) fun ⟨n, _, h⟩ => State.not_endsAt_of_stopped hend hstop n u h

/-- A run ends, if at all, before its schedule is used up. -/
theorem State.EndsAt.le_length {s u : State} {n : Nat} (h : s.EndsAt n u) : n ≤ s.schedule.length := by
  obtain ⟨hrun, hu, -⟩ := h
  by_contra hn
  have hnil : u.schedule = [] := by rw [runFor_schedule hrun, List.drop_eq_nil_of_le (by omega)]
  simp [State.endsRun_nil hnil] at hu

theorem State.runEnd_eq_some_iff {s u : State} : s.runEnd = some u ↔ ∃ n, s.EndsAt n u := by
  rw [State.runEnd, runEndWithin_eq_some_iff]
  exact ⟨fun ⟨n, _, h⟩ => ⟨n, h⟩, fun ⟨n, h⟩ => ⟨n, h.le_length, h⟩⟩

/-- A run along which a read ends it somewhere has an end. -/
theorem State.exists_runEnd {s t : State} {k : Nat} (h : runFor k s = .next t) (ht : t.endsRun = true) :
    ∃ u, s.runEnd = some u ∧ u.endsRun = true := by
  have hex : ∃ n v, runFor n s = .next v ∧ v.endsRun = true := ⟨k, t, h, ht⟩
  classical
  obtain ⟨u, hrun, hu⟩ := Nat.find_spec hex
  refine ⟨u, State.runEnd_eq_some_iff.2 ⟨Nat.find hex, hrun, hu, fun m hm v hv => ?_⟩, hu⟩
  simpa using fun hend => Nat.find_min hex hm ⟨v, hv, hend⟩

/-- A schedule of defined events that closes with the CORE's turn and a read of STATUS has an end. -/
theorem State.exists_runEnd_of_closed {s : State} {es : List Event}
    (hdef : ∀ e ∈ es, Config.definedEvent s.config e)
    (hs : s.schedule = es ++ [.coreTurn, Config.reads s.config .status]) :
    ∃ u, s.runEnd = some u ∧ u.endsRun = true := by
  obtain ⟨t, ht, hsched, hconf⟩ := runFor_defined hs hdef
  obtain ⟨v, hv, hvsched, hvconf, hq⟩ := step_coreNext_quiescent (.inr ⟨_, hsched⟩)
  have hpoll : v.schedule = [Config.reads v.config .status] := by rw [hvsched, hsched, hvconf, hconf]; rfl
  exact State.exists_runEnd (runFor_succ_of_runFor ht hv) ((State.endsRun_iff v).2 ⟨[], hpoll, hq, by simp⟩)

/-- Settles O16: defined events all step and the CORE's turn leaves nothing pending; the search for the end follows the
run, and STATUS reads BUSY = 0 where it ends. -/
theorem runReachesQuiescence : Obligations.RunReachesQuiescence := by
  refine ⟨fun s hdef => ?_, State.endsRun_iff, fun s u => State.runEnd_eq_some_iff, fun s es hdef hs => ?_⟩
  · obtain ⟨t, ht, hsched, -⟩ := runFor_defined (rest := []) (List.append_nil _).symm hdef
    obtain ⟨u, hu, husched, -, hq⟩ := step_coreNext_quiescent (.inl hsched)
    exact ⟨u, runFor_succ_of_runFor ht hu, hq, by rw [husched, hsched]; rfl⟩
  · obtain ⟨u, hend, hu⟩ := State.exists_runEnd_of_closed hdef hs
    obtain ⟨-, -, hq, -⟩ := (State.endsRun_iff u).1 hu
    exact ⟨u, hend, rfl, State.statusWord_busy_of_quiescent hq⟩

end Sys2Proof.Machine
end

section
/-! SUPPORT. HOST accesses and the bus (20_memory.md R61, R63, R64, R65): where an access is outside the window, where it
is undefined, and where it reaches a register. -/

namespace Sys2Proof.Machine

/-- A scheduled HOST access, read or write, is the step's one access, whatever its width and address. -/
theorem step_access {s : State} {width addr : Nat} {rest : List Event}
    (h : s.schedule = .hostRead width addr :: rest ∨ ∃ w, s.schedule = .hostWrite width addr w :: rest) :
    ∃ effect, step s = State.access { s with schedule := rest } width addr effect := by
  rcases h with h | ⟨w, h⟩ <;> exact ⟨_, step_cons h⟩

/-- An aligned 32-bit access inside the window reaches a register (20_memory.md R64, R65). -/
theorem State.access_aligned (s : State) {offset : Nat} (effect : WindowReg → State) (inside : offset < 32)
    (aligned : offset % 4 = 0) : ∃ r, s.access 32 (s.config.windowBase + offset) effect = .next (effect r) := by
  obtain ⟨r, hr⟩ := Option.isSome_iff_exists.1 ((WindowReg.ofOffset_isSome offset inside).2 aligned)
  exact ⟨r, by simp [State.access, inside, hr]⟩

/-- Any other access inside the window is refused (20_memory.md R64). -/
theorem State.access_undefined (s : State) {width offset : Nat} (effect : WindowReg → State) (inside : offset < 32)
    (undef : ¬ (width = 32 ∧ offset % 4 = 0)) :
    s.access width (s.config.windowBase + offset) effect = .refused (.undefinedAccess width offset) := by
  by_cases hw : width = 32
  · have hnone : WindowReg.ofOffset offset = none := by
      rw [← Option.not_isSome_iff_eq_none, WindowReg.ofOffset_isSome offset inside]
      exact fun aligned => undef ⟨hw, aligned⟩
    simp [State.access, inside, hw, hnone]
  · simp [State.access, inside, hw]

/-- Settles O21: the step is one access at an offset inside the window, defined or not. -/
theorem onlyAlignedWordAccessesStep : Obligations.OnlyAlignedWordAccessesStep := by
  intro s width offset rest inside hs
  obtain ⟨effect, hstep⟩ := step_access hs
  refine ⟨fun ⟨hw, aligned⟩ => ?_, fun undef => ?_⟩
  · obtain ⟨r, hr⟩ := State.access_aligned { s with schedule := rest } effect inside aligned
    exact ⟨effect r, by rw [hstep, hw, hr]⟩
  · rw [hstep]
    exact State.access_undefined { s with schedule := rest } effect inside undef

/-- Settles O22: the step is one access, and its address is outside the window. -/
theorem accessOutsideWindowFaults : Obligations.AccessOutsideWindowFaults := by
  intro s width addr rest outside hs
  obtain ⟨effect, hstep⟩ := step_access hs
  rw [hstep]
  exact State.access_outside _ effect outside

/-- Settles O17: the step is the read of that register; the word it returns is read off register by register. -/
theorem windowReadsHaveNoSideEffect : Obligations.WindowReadsHaveNoSideEffect := by
  intro s r rest hs
  refine ⟨State.readWindow { s with schedule := rest } r, step_read hs, ?_, ?_, ?_, ?_, ?_, ?_, ?_, ?_⟩ <;>
    rintro rfl <;> rfl

/-- Settles O18: the step is the write to that register, and a write to a read-only one leaves the state. -/
theorem readOnlyRegistersIgnoreWrites : Obligations.ReadOnlyRegistersIgnoreWrites := by
  intro s r w rest hs readOnly
  rw [step_write hs]
  rcases readOnly with rfl | rfl | rfl | rfl | rfl <;> rfl

/-- A slice of a word, as a number, is the field at its place (00_scope.md R9). -/
theorem toNat_extractLsb'_eq_bitField (w : Word) (lo n : Nat) : (w.extractLsb' lo n).toNat = bitField w lo n := by
  rw [BitVec.extractLsb'_toNat, Nat.shiftRight_eq_div_pow, bitField]

/-- The byte lanes of a word carry it whole (20_memory.md R63). -/
theorem wordOfLanes_extractLsb' (w : Word) :
    wordOfLanes (w.extractLsb' 0 8) (w.extractLsb' 8 8) (w.extractLsb' 16 8) (w.extractLsb' 24 8) = w := by
  have hw := w.isLt
  apply BitVec.eq_of_toNat_eq
  simp only [wordOfLanes, toNat_append_eq_add, toNat_extractLsb'_eq_bitField, bitField]
  omega

/-- Settles O20: the lanes are four slices of the word, and together they are the word. -/
theorem busLanesAreLittleEndian : Obligations.BusLanesAreLittleEndian := by
  intro w
  exact ⟨_, _, _, _, rfl, wordOfLanes_extractLsb' w, toNat_extractLsb'_eq_bitField w 0 8,
    toNat_extractLsb'_eq_bitField w 8 8, toNat_extractLsb'_eq_bitField w 16 8, toNat_extractLsb'_eq_bitField w 24 8⟩

end Sys2Proof.Machine
end

section
/-! SUPPORT. The encoder and the decoder against each other (30_encoding.md R82, R86, R87, R89). -/

namespace Sys2Proof

/-- Settles O1: instruction by instruction, the decoder gets back the fields the encoder wrote, and finds the
unused ones zero. -/
theorem decodeEncodeGivesInstructionBack : Obligations.DecodeEncodeGivesInstructionBack := by
  intro i hwf
  cases i
  case divmod rd rd2 rs1 rs2 =>
    have hne : rd ≠ rd2 := by simpa [Instr.wf] using hwf
    rw [encode, decode_commandWord (by decide)]
    simp [decodeFields, hne]
  all_goals
    rw [encode, decode_commandWord (by decide)]
    rfl

/-- What the decoder accepts has zero reserved bits, and its fields are those of the instruction it answers. -/
theorem decodeFields_ok {op reserved : Nat} {rd rs1 rs2 rd2 : Reg} {imm : Word} {i : Instr}
    (h : decodeFields op reserved rd rs1 rs2 rd2 imm = .ok i) :
    reserved = 0 ∧ i.wf = true ∧ (encode i).word = commandWord op rd rs1 rs2 rd2 ∧
      (i.immOperand = none ∨ i.immOperand = some imm) := by
  unfold decodeFields at h
  split at h
  · cases h
  next hres =>
    refine ⟨not_not.mp hres, ?_⟩
    split at h
    case h_16 =>
      split at h
      · cases h
      next hne => cases h; exact ⟨by simpa [Instr.wf] using hne, rfl, .inl rfl⟩
    case h_20 => cases h
    all_goals
      obtain ⟨unusedZero, rfl⟩ := whenZero_ok.mp h
      simp_all [encode, Instr.wf, Instr.immOperand]

/-- Settles O2: the word is put together from its fields, and those are the ones the encoder writes. -/
theorem decodedWordIsExactEncoding : Obligations.DecodedWordIsExactEncoding := by
  intro c i h
  obtain ⟨hres, hwf, hword, himm⟩ := decodeFields_ok h
  exact ⟨hwf, hword.trans (commandWord_fields hres), himm⟩

/-- Settles O7: the seven words are decoded by computation. -/
theorem patternWordsDecode : Obligations.PatternWordsDecode := by
  unfold Obligations.PatternWordsDecode
  decide

end Sys2Proof
end

section
/-! SUPPORT. The opcode map (30_encoding.md R88) read field by field: a row compares whole nibbles, so it matches a
word exactly when the opcode is the row's, the reserved bits are zero, and so are the register fields the row does not
use. -/

namespace Sys2Proof

theorem regField_eq_zero_iff (w : Word) (k : Nat) : regField w (4 * k) = 0 ↔ nibble w k = 0 := by
  rw [← BitVec.toNat_inj, nibble_toNat, Fin.ext_iff]
  rfl

theorem opcodeField_eq_iff (w v : Word) :
    opcodeField w = opcodeField v ↔ nibble w 7 = nibble v 7 ∧ nibble w 6 = nibble v 6 := by
  have hw := w.isLt
  have hv := v.isLt
  simp only [← BitVec.toNat_inj, nibble_toNat, opcodeField, bitField]
  omega

theorem reservedField_eq_iff (w v : Word) :
    reservedField w = reservedField v ↔ nibble w 1 = nibble v 1 ∧ nibble w 0 = nibble v 0 := by
  simp only [← BitVec.toNat_inj, nibble_toNat, reservedField, bitField]
  omega

/-- The register fields of w that the row requires to be zero (R86): those its mask covers, from rd down to rd2. -/
def OpcodeRow.unusedFields (r : OpcodeRow) (w : Word) : List Reg :=
  ([5, 4, 3, 2].filter fun k => nibble r.mask k == 15).map fun k => regField w (4 * k)

theorem OpcodeRow.unusedFields_zero_iff (r : OpcodeRow) (w : Word) :
    (∀ f ∈ r.unusedFields w, f = 0) ↔ ∀ k ∈ [5, 4, 3, 2], nibble r.mask k = 15 → nibble w k = 0 := by
  simp only [OpcodeRow.unusedFields, List.forall_mem_map, List.mem_filter, beq_iff_eq, and_imp, regField_eq_zero_iff]

/-- The shape of a row: it compares the opcode and the reserved bits, and each register field whole with 0 or not at
all. -/
abbrev OpcodeRow.Fieldwise (r : OpcodeRow) : Prop :=
  opcodeField r.fixed = r.opcode ∧ reservedField r.fixed = 0 ∧ (∀ k ∈ [7, 6, 1, 0], nibble r.mask k = 15) ∧
    ∀ k ∈ [5, 4, 3, 2], nibble r.fixed k = 0 ∧ (nibble r.mask k = 15 ∨ nibble r.mask k = 0)

theorem opcodeRows_fieldwise : ∀ r ∈ opcodeRows, r.Fieldwise := by decide

theorem and_fifteen (x : BitVec 4) : x &&& 15 = x := BitVec.and_allOnes

/-- The eight nibbles, by the fields they stand in: opcode, reserved bits, registers. -/
theorem forall_lt_eight_iff {P : Nat → Prop} :
    (∀ k < 8, P k) ↔ (P 7 ∧ P 6) ∧ (P 1 ∧ P 0) ∧ ∀ k ∈ [5, 4, 3, 2], P k := by
  constructor
  · intro h
    exact ⟨⟨h 7 (by decide), h 6 (by decide)⟩, ⟨h 1 (by decide), h 0 (by decide)⟩,
      fun k hk => h k (by simp at hk; omega)⟩
  · rintro ⟨⟨h7, h6⟩, ⟨h1, h0⟩, hreg⟩ k hk
    interval_cases k
    exacts [h0, h1, hreg 2 (by decide), hreg 3 (by decide), hreg 4 (by decide), hreg 5 (by decide), h6, h7]

/-- The column "match" of R88, in terms of the fields of R82. -/
theorem OpcodeRow.matchesWord_iff_fields {r : OpcodeRow} (hr : r ∈ opcodeRows) (w : Word) :
    r.matchesWord w = true ↔
      opcodeField w = r.opcode ∧ reservedField w = 0 ∧ ∀ f ∈ r.unusedFields w, f = 0 := by
  obtain ⟨hop, hres, hall, hreg⟩ := opcodeRows_fieldwise r hr
  have whole (k : Nat) (hk : k ∈ [7, 6, 1, 0]) :
      nibble w k &&& nibble r.mask k = nibble r.fixed k ↔ nibble w k = nibble r.fixed k := by
    rw [hall k hk, and_fifteen]
  have masked (k : Nat) (hk : k ∈ [5, 4, 3, 2]) :
      nibble w k &&& nibble r.mask k = nibble r.fixed k ↔ (nibble r.mask k = 15 → nibble w k = 0) := by
    obtain ⟨hfixed, hmask | hmask⟩ := hreg k hk
    · simp only [hfixed, hmask, and_fifteen, forall_const]
    · simp [hfixed, hmask]
  have opcode := opcodeField_eq_iff w r.fixed
  have reserved := reservedField_eq_iff w r.fixed
  rw [hop] at opcode
  rw [hres] at reserved
  rw [r.matchesWord_iff, forall_lt_eight_iff, whole 7 (by decide), whole 6 (by decide), whole 1 (by decide),
    whole 0 (by decide), forall₂_congr masked, opcode, reserved, r.unusedFields_zero_iff]

/-- The decoder, row by row: on the row's opcode it answers the row's instruction, once the fields the row does not use
are zero (R86) and, for DIVMOD, the destinations differ (R89). -/
theorem decode_of_row {r : OpcodeRow} (hr : r ∈ opcodeRows) {w : Word} (hop : opcodeField w = r.opcode)
    (hres : reservedField w = 0) (imm : Word) :
    ∃ i : Instr, i.mnemonic = r.mnemonic ∧ decode ⟨w, imm⟩ =
      if r.mnemonic = "DIVMOD" ∧ rdField w = rd2Field w then .error .sameDestinations
      else whenZero (r.unusedFields w) i := by
  rw [decode, hop, hres]
  simp only [opcodeRows, storeRows, arithRows, bitDivReadRows, List.cons_append, List.nil_append, List.mem_cons,
    List.not_mem_nil, or_false] at hr
  rcases hr with rfl | rfl | rfl | rfl | rfl | rfl | rfl | rfl | rfl | rfl | rfl | rfl | rfl | rfl | rfl | rfl | rfl |
    rfl | rfl
  · exact ⟨.init (rdField w), rfl, rfl⟩
  · exact ⟨.enlarge (rdField w) imm, rfl, rfl⟩
  · exact ⟨.compact (rdField w), rfl, rfl⟩
  · exact ⟨.set (rdField w) (rs1Field w), rfl, rfl⟩
  · exact ⟨.setw (rdField w) imm, rfl, rfl⟩
  · exact ⟨.dec (rdField w) imm, rfl, rfl⟩
  · exact ⟨.cmp (rs1Field w) (rs2Field w), rfl, rfl⟩
  · exact ⟨.cmpw (rs1Field w) imm, rfl, rfl⟩
  · exact ⟨.addw (rdField w) (rs1Field w) imm, rfl, rfl⟩
  · exact ⟨.mulw (rdField w) (rs1Field w) imm, rfl, rfl⟩
  · exact ⟨.mul (rdField w) (rs1Field w) (rs2Field w), rfl, rfl⟩
  · exact ⟨.sub (rdField w) (rs1Field w) (rs2Field w), rfl, rfl⟩
  · exact ⟨.testbit (rs1Field w) imm, rfl, rfl⟩
  · exact ⟨.setbit (rdField w) imm, rfl, rfl⟩
  · exact ⟨.shl (rdField w) (rs1Field w) imm, rfl, rfl⟩
  · refine ⟨.divmod (rdField w) (rd2Field w) (rs1Field w) (rs2Field w), rfl, ?_⟩
    by_cases hsame : rdField w = rd2Field w
    · simp [decodeFields, hsame]
    · have hunused : OpcodeRow.unusedFields ⟨0x28, "DIVMOD", 0xFF0000FF#32, 0x28000000#32⟩ w = [] := rfl
      simp [decodeFields, hsame, hunused, whenZero]
  · exact ⟨.gcd (rdField w) (rs1Field w) (rs2Field w), rfl, rfl⟩
  · exact ⟨.rdcap (rs1Field w), rfl, rfl⟩
  · exact ⟨.rddig (rs1Field w) imm, rfl, rfl⟩

/-- The opcode of a command that decodes stands in the opcode map. -/
theorem decodeFields_opcode_mem {op reserved : Nat} {rd rs1 rs2 rd2 : Reg} {imm : Word} {i : Instr}
    (h : decodeFields op reserved rd rs1 rs2 rd2 imm = .ok i) : ∃ r ∈ opcodeRows, r.opcode = op := by
  unfold decodeFields at h
  split at h
  · cases h
  · split at h
    case h_20 => cases h
    all_goals decide

theorem row_of_decode {w imm : Word} {i : Instr} (h : decode ⟨w, imm⟩ = .ok i) :
    ∃ r ∈ opcodeRows, r.matchesWord w = true ∧ ¬ (r.mnemonic = "DIVMOD" ∧ rdField w = rd2Field w) ∧
      r.mnemonic = i.mnemonic := by
  obtain ⟨r, hr, hop⟩ := decodeFields_opcode_mem h
  obtain ⟨hres, -⟩ := decodeFields_ok h
  obtain ⟨j, hj, hdecode⟩ := decode_of_row hr hop.symm hres imm
  rw [hdecode] at h
  split at h
  · cases h
  next hdistinct =>
    obtain ⟨hzero, rfl⟩ := whenZero_ok.mp h
    exact ⟨r, hr, (r.matchesWord_iff_fields hr w).mpr ⟨hop.symm, hres, hzero⟩, hdistinct, hj.symm⟩

theorem decode_of_matchesWord {r : OpcodeRow} (hr : r ∈ opcodeRows) {w : Word} (hm : r.matchesWord w = true)
    (hdistinct : ¬ (r.mnemonic = "DIVMOD" ∧ rdField w = rd2Field w)) (imm : Word) : ∃ i, decode ⟨w, imm⟩ = .ok i := by
  obtain ⟨hop, hres, hzero⟩ := (r.matchesWord_iff_fields hr w).mp hm
  obtain ⟨i, -, hdecode⟩ := decode_of_row hr hop hres imm
  exact ⟨i, by rw [hdecode, if_neg hdistinct]; exact whenZero_ok.mpr ⟨hzero, rfl⟩⟩

/-- Settles O3: the decoder on a row's opcode is the row's test of the unused fields, and of DIVMOD's destinations. -/
theorem decoderAgreesWithOpcodeMap : Obligations.DecoderAgreesWithOpcodeMap := by
  intro w imm
  refine ⟨⟨fun ⟨i, hi⟩ => ?_, fun ⟨r, hr, hm, hdistinct⟩ => decode_of_matchesWord hr hm hdistinct imm⟩,
    fun i hi => ?_⟩
  · obtain ⟨r, hr, hm, hdistinct, -⟩ := row_of_decode hi
    exact ⟨r, hr, hm, hdistinct⟩
  · obtain ⟨r, hr, hm, -, hname⟩ := row_of_decode hi
    exact ⟨r, hr, hm, hname⟩

/-- Settles O4: a row that matches has the word's opcode, and no two rows have the same one. -/
theorem atMostOneRowMatches : Obligations.AtMostOneRowMatches := by
  intro w r r' hr hr' hm hm'
  have distinct : ∀ r ∈ opcodeRows, ∀ r' ∈ opcodeRows, r.opcode = r'.opcode → r = r' := by decide
  obtain ⟨hop, -⟩ := (r.matchesWord_iff_fields hr w).mp hm
  obtain ⟨hop', -⟩ := (r'.matchesWord_iff_fields hr' w).mp hm'
  exact distinct r hr r' hr' (hop.symm.trans hop')

end Sys2Proof
end

section
/-! SUPPORT. The CORE step of a word that decodes to no instruction (30_encoding.md R90, R91). -/

namespace Sys2Proof.Machine

theorem State.coreStep_undecoded {s : State} {c : Command} (hp : s.pending = some c) (hd : ∀ i, decode c ≠ .ok i) :
    s.coreStep = .next (s.takeFault .illegal) := by
  cases hc : decode c with
  | ok i => exact absurd hc (hd i)
  | error e => simp [State.coreStep, hp, hc]

/-- A pending command that decodes to no instruction leaves only the ILLEGAL record (60_exceptions.md R233, R241). -/
theorem step_illegal {s : State} {c : Command} (hp : s.pending = some c) (hs : s.coreNext)
    (hd : ∀ i, decode c ≠ .ok i) :
    step s = .next { s with fault := true, fatal := false, fcode := 0x01#8, fcmd := c.word, fimm := c.imm,
                            pending := none, schedule := s.schedule.tail } := by
  rw [step_coreNext hs, State.coreStep_undecoded (s := { s with schedule := s.schedule.tail }) hp hd]
  simp [State.takeFault, hp, FaultCode.code]

/-- Settles O5: a command that decodes has the opcode of a row, and no row's opcode is reserved. -/
theorem reservedOpcodeFaultsIllegal : Obligations.ReservedOpcodeFaultsIllegal := by
  intro s c op hp hs hop hreserved
  refine step_illegal hp hs fun i hi => ?_
  obtain ⟨r, hr, hrow⟩ := decodeFields_opcode_mem hi
  rw [← hop, ← hrow] at hreserved
  clear hrow
  revert hreserved
  revert r
  decide

/-- Settles O6: a command that decodes has the word of its instruction (O2). One that does not has the word of none: a
word that decodes with the encoder's operand (O1) decodes with every operand, as the opcode map shows (O3). -/
theorem everyWordIsInstructionOrIllegal : Obligations.EveryWordIsInstructionOrIllegal := by
  intro s c hp hs
  cases hc : decode c with
  | ok i =>
    obtain ⟨hwf, hword, -⟩ := decodedWordIsExactEncoding c i hc
    refine .inl ⟨i, hwf, hword, rfl, ?_, fun j hj => (Except.ok.inj hj).symm⟩
    rw [step_coreNext hs]
    exact State.coreStep_decoded hp hc
  | error e =>
    have hd : ∀ i, decode c ≠ .ok i := by simp [hc]
    refine .inr ⟨fun i hwf hword => ?_, step_illegal hp hs hd⟩
    have hi : decode ⟨c.word, (encode i).imm⟩ = .ok i := by
      rw [← hword]; exact decodeEncodeGivesInstructionBack i hwf
    obtain ⟨j, hj⟩ := (decoderAgreesWithOpcodeMap c.word c.imm).1.mpr
      ((decoderAgreesWithOpcodeMap c.word _).1.mp ⟨i, hi⟩)
    exact hd j hj

end Sys2Proof.Machine
end

section
/-! SUPPORT. The digit store commands (41_digit_store.md R111 to R114): each sets rd to one register of a known value
and capacity, so its statement reads off what that register is. -/

namespace Sys2Proof.Machine

/-! ## Registers rebuilt from their value -/

/-- Digits of the value, at least as many as the register has: the value stays (10_state.md R24, R25). -/
theorem Mpr.Fits.val_ofValue_val {k n : Nat} {m : Mpr} (hm : m.Fits k) (hn : m.cap ≤ n) :
    (Mpr.ofValue m.val n).val = m.val := Mpr.val_ofValue (hm.len_val_le.trans hn)

theorem Mpr.Fits.digit_ofValue_val {k n : Nat} {m : Mpr} (hm : m.Fits k) (hn : m.cap ≤ n) (j : Nat) :
    (Mpr.ofValue m.val n).digit j = m.digit j := by
  rw [(Mpr.fits_ofValue le_rfl).digit_eq, hm.val_ofValue_val hn, hm.digit_eq]

/-- The canonical form of a canonical register is the register (10_state.md R26). -/
theorem Mpr.Fits.ofValue_len_of_canonical {k : Nat} {m : Mpr} (hm : m.Fits k) (hc : m.canonical = true) :
    Mpr.ofValue m.val (len m.val) = m := by
  have hcap : m.cap = len m.val := beq_iff_eq.1 hc
  rw [← hcap, Mpr.ofValue_val hm]

/-! ## Commands that set one register -/

@[simp] theorem State.setReg_reg (s : State) (i : Reg) : s.setReg i (s.reg i) = s := by
  simp [State.setReg, State.reg]

theorem WritesOnly.setReg_complete (s : State) (rd : Reg) (m : Mpr) : WritesOnly rd s (s.setReg rd m).complete :=
  ⟨fun _ hj => s.reg_setReg_ne hj m, rfl⟩

@[simp] theorem State.cap_setReg_complete (s : State) (rd : Reg) (m : Mpr) : (s.setReg rd m).complete.cap rd = m.cap := by
  simp [State.cap]

@[simp] theorem State.val_setReg_complete (s : State) (rd : Reg) (m : Mpr) : (s.setReg rd m).complete.val rd = m.val := by
  simp [State.val]

/-! ## The commands -/

/-- WRITE_KEEP of the value of rs, with room for all the digits of rs: the capacity follows from the request, and the
write completes (10_state.md R27). -/
theorem State.Inv.finish_writeKeep_val {s : State} (h : s.Inv) (rd rs : Reg) {k : Nat} (hk : k ≤ s.maxDigits)
    (hroom : s.cap rs ≤ max (s.cap rd) k) :
    s.finish (s.writeKeep rd (s.val rs) k) =
      .next (s.setReg rd (Mpr.ofValue (s.val rs) (max (s.cap rd) k))).complete := by
  have hlen : len (s.val rs) ≤ max (s.cap rd) k := (h.regs_fit rs).len_val_le.trans hroom
  rw [s.writeKeep_ok rd (h.cap_le rd) hk (h.len_val_le rs), max_eq_left hlen, State.finish_ok]

theorem exec_enlarge (rd : Reg) (imm : Word) (s : State) :
    exec (.enlarge rd imm) s = s.finish (s.writeKeep rd (s.val rd) imm.toNat) := rfl

theorem exec_compact (rd : Reg) (s : State) :
    exec (.compact rd) s = .next (s.setReg rd (Mpr.ofValue (s.val rd) (len (s.val rd)))).complete := rfl

theorem exec_compact_of_canonical {k : Nat} {rd : Reg} {s : State} (hfit : (s.reg rd).Fits k)
    (hc : (s.reg rd).canonical = true) : exec (.compact rd) s = .next s.complete := by
  rw [exec_compact, State.val, hfit.ofValue_len_of_canonical hc, State.setReg_reg]

/-- Settles O35: INIT sets rd to the empty register, from every state. -/
theorem initEmptiesRegister : Obligations.InitEmptiesRegister := by
  intro s rd x
  exact ⟨decode_commandWord (by decide) .., _, rfl, .setReg_complete .., by simp, by simp⟩

/-- Settles O36: a WRITE_KEEP of rd's own value, which faults only on the requested capacity. -/
theorem enlargeGrowsCapacity : Obligations.EnlargeGrowsCapacity := by
  intro s rd imm h
  refine ⟨decode_commandWord (by decide) .., fun himm => ?_, fun himm => ?_⟩
  · have hroom : s.cap rd ≤ max (s.cap rd) imm.toNat := le_max_left _ _
    have hfit := h.regs_fit rd
    refine ⟨_, h.finish_writeKeep_val rd rd himm hroom, .setReg_complete .., by simp, ?_, fun j => ?_⟩
    · rw [State.val_setReg_complete]; exact hfit.val_ofValue_val hroom
    · rw [State.reg_complete, State.reg_setReg_self]; exact hfit.digit_ofValue_val hroom j
  · rw [exec_enlarge, s.writeKeep_capacity rd (.inl himm), State.finish_error]

/-- Settles O38: a WRITE_KEEP of rs1's value with rs1's capacity requested; on rd = rs1 it writes the register back. -/
theorem setCopiesRegister : Obligations.SetCopiesRegister := by
  intro s rd rs1 x h
  have hroom : s.cap rs1 ≤ max (s.cap rd) (s.cap rs1) := le_max_right _ _
  have hfit := h.regs_fit rs1
  refine ⟨decode_commandWord (by decide) .., _, h.finish_writeKeep_val rd rs1 (h.cap_le rs1) hroom, .setReg_complete ..,
    by simp, ?_, fun j => ?_, ?_⟩
  · rw [State.val_setReg_complete]; exact hfit.val_ofValue_val hroom
  · rw [State.reg_complete, State.reg_setReg_self]; exact hfit.digit_ofValue_val hroom j
  · rintro rfl
    have hsame : Mpr.ofValue (s.val rd) (s.cap rd) = s.reg rd := Mpr.ofValue_val hfit
    rw [max_self, hsame, State.setReg_reg, State.complete_regs]

/-- Settles O37: COMPACT sets rd to the canonical form of its value, and that form is a fixed point of COMPACT. -/
theorem compactGivesCanonicalForm : Obligations.CompactGivesCanonicalForm := by
  intro s rd x h
  set m := Mpr.ofValue (s.val rd) (len (s.val rd))
  have hcanon : m.canonical = true := Mpr.canonical_ofValue_len _
  have hreg : (s.setReg rd m).complete.reg rd = m := by simp
  refine ⟨decode_commandWord (by decide) .., _, exec_compact rd s, .setReg_complete .., ?_, by simp, ?_, fun hc => ?_, _,
    exec_compact_of_canonical (k := len (s.val rd)) ?_ ?_, rfl⟩
  · rw [State.val_setReg_complete, Mpr.val_ofValue le_rfl]
  · rw [hreg, hcanon]
  · rw [hreg]; exact (h.regs_fit rd).ofValue_len_of_canonical hc
  · rw [hreg]; exact Mpr.fits_ofValue le_rfl
  · rw [hreg, hcanon]

end Sys2Proof.Machine
end

section
/-! SUPPORT. The conversion commands (42_conversions.md R131 to R134), and DEC as MULW by 10 followed by ADDW of the
digit. -/

namespace Sys2Proof.Machine

/-! ## The answers of the commands -/

/-- A WRITE_KEEP that fits, as the register it sets (10_state.md R27). -/
theorem State.finish_writeKeep_next (s : State) (rd : Reg) {v k : Nat} (hcap : s.cap rd ≤ s.maxDigits)
    (hk : k ≤ s.maxDigits) (hv : len v ≤ s.maxDigits) :
    s.finish (s.writeKeep rd v k) = .next (s.setReg rd (Mpr.ofValue v (max (max (s.cap rd) k) (len v)))).complete := by
  rw [s.writeKeep_ok rd hcap hk hv, State.finish_ok]

theorem exec_dec_badBase {imm : Word} (hbase : decBase imm ≠ 10) (rd : Reg) (s : State) :
    exec (.dec rd imm) s = .next (s.takeFault .badBase) := by
  rw [exec, execDec, if_pos hbase, State.finish_error]

theorem exec_dec_badDigit {imm : Word} (hbase : decBase imm = 10) (hchar : decChar imm < 0x30 ∨ 0x39 < decChar imm)
    (rd : Reg) (s : State) : exec (.dec rd imm) s = .next (s.takeFault .badDigit) := by
  rw [exec, execDec, if_neg (not_not.2 hbase), if_pos hchar, State.finish_error]

/-- With base 10 and a digit, DEC is one WRITE_KEEP that asks for no capacity of its own. -/
theorem exec_dec_digit {imm : Word} (hbase : decBase imm = 10) (hlo : 0x30 ≤ decChar imm) (hhi : decChar imm ≤ 0x39)
    (rd : Reg) (s : State) :
    exec (.dec rd imm) s = s.finish (s.writeKeep rd (s.val rd * 10 + (decChar imm - 0x30)) 0) := by
  rw [exec, execDec, if_neg (not_not.2 hbase), if_neg (by omega)]

/-- R12's encoding of the three-way comparison, on numbers. -/
theorem encodeOrdering_cmp3 (a b : Nat) :
    encodeOrdering (cmp3 a b) = if a < b then 0xFFFFFFFF#32 else if a = b then 0#32 else 1#32 := by
  unfold cmp3
  split
  · rfl
  · split <;> rfl

theorem exec_cmpw {s : State} (h : s.Inv) (rs1 : Reg) (imm : Word) :
    exec (.cmpw rs1 imm) s = .next (s.setResult (encodeOrdering (cmp3 (s.val rs1) imm.toNat))).complete := by
  rw [exec, execCmpw, State.cap, compareDown_word (h.regs_fit rs1), State.finish_ok, State.val]

theorem exec_rdcap (rs1 : Reg) (s : State) :
    exec (.rdcap rs1) s = .next (s.setResult (BitVec.ofNat 32 (s.cap rs1))).complete := rfl

/-- A missing digit is 0 already, so RDDIG returns digit imm in both cases of the rule. -/
theorem exec_rddig (rs1 : Reg) (imm : Word) (s : State) :
    exec (.rddig rs1 imm) s = .next (s.setResult (BitVec.ofNat 32 ((s.reg rs1).digit imm.toNat))).complete := by
  rw [exec, execRddig, State.finish_ok]
  split
  · rfl
  next hcap => rw [Mpr.digit_of_cap_le (not_lt.1 hcap)]; rfl

theorem exec_addw (rd rs1 : Reg) (imm : Word) (s : State) :
    exec (.addw rd rs1 imm) s = s.finish (s.writeKeep rd (s.val rs1 + imm.toNat) (s.cap rs1)) := by
  rw [exec, execAddw, digitsValue_addChain, State.val, Mpr.val]

theorem exec_mulw (rd rs1 : Reg) (imm : Word) (s : State) :
    exec (.mulw rd rs1 imm) s = s.finish (s.writeKeep rd (s.val rs1 * imm.toNat) (s.cap rs1)) := by
  rw [exec, execMulw, digitsValue_mulChain, Nat.add_zero, State.val, Mpr.val]

/-! ## The statements -/

/-- Settles O39: the checks of DEC in their order, and the WRITE_KEEP that follows them. -/
theorem decAppendsDecimalDigit : Obligations.DecAppendsDecimalDigit := by
  rintro s rd imm base ch h rfl rfl
  refine ⟨decode_commandWord (by decide) .., fun hbase => exec_dec_badBase hbase rd s,
    fun hbase hchar => exec_dec_badDigit hbase hchar rd s, fun hbase hlo hhi hlen => ?_, fun hbase hlo hhi hlen => ?_⟩
  · rw [exec_dec_digit hbase hlo hhi, decChar, s.writeKeep_capacity rd (.inr hlen), State.finish_error]
  · obtain ⟨t, ht, hframe, hval, hcap, -⟩ := State.finish_writeKeep h rd (Nat.zero_le _) hlen
    rw [Nat.max_zero] at hcap
    exact ⟨t, (exec_dec_digit hbase hlo hhi rd s).trans ht, hframe, hval, hcap⟩

/-- Settles O40: the digit comparison is the comparison of the values. -/
theorem cmpwComparesValueWithWord : Obligations.CmpwComparesValueWithWord := by
  intro s rs1 imm h
  exact ⟨decode_commandWord (by decide) .., _, _, exec_cmpw h rs1 imm, returnsOnly_setResult .., encodeOrdering_cmp3 ..⟩

/-- Settles O41: a capacity is at most MAX_DIGITS, which is below 2^24, so the word holds it whole. -/
theorem rdcapReturnsCapacity : Obligations.RdcapReturnsCapacity := by
  intro s rs1 x h
  have hcap : s.cap rs1 ≤ s.maxDigits := h.cap_le rs1
  have hmax : s.maxDigits ≤ 16777215 := h.config_legal.2
  have hword : (BitVec.ofNat 32 (s.cap rs1)).toNat = s.cap rs1 := by
    rw [BitVec.toNat_ofNat, Nat.mod_eq_of_lt (by omega)]
  exact ⟨decode_commandWord (by decide) .., _, _, exec_rdcap rs1 s, returnsOnly_setResult .., hword, hword.trans_le hcap⟩

/-- Settles O42: the word is digit imm, which is below 2^31, 0 beyond the capacity, and a digit of the value. -/
theorem rddigReturnsDigit : Obligations.RddigReturnsDigit := by
  intro s rs1 imm h
  have hdigit : (s.reg rs1).digit imm.toNat < 2 ^ 31 := (h.regs_fit rs1).digit_lt' imm.toNat
  have hword : (BitVec.ofNat 32 ((s.reg rs1).digit imm.toNat)).toNat = (s.reg rs1).digit imm.toNat := by
    rw [BitVec.toNat_ofNat, Nat.mod_eq_of_lt (by omega)]
  refine ⟨decode_commandWord (by decide) .., _, _, exec_rddig rs1 imm s, returnsOnly_setResult .., ?_, ?_, ?_⟩
  · rw [hword]
    split
    · rfl
    next hcap => exact Mpr.digit_of_cap_le (not_lt.1 hcap)
  · rw [bitField, hword]; omega
  · rw [hword, (h.regs_fit rs1).digit_eq, radix_pow, radix_eq, State.val]

/-! ## DEC on the standard operand (30_encoding.md R85) -/

@[simp] theorem decBase_decOperand (c : Byte) : decBase (decOperand c) = 10 := by
  have hc := c.isLt
  simp only [decBase, decOperand, bitField, toNat_append_eq_add, BitVec.toNat_ofNat]
  omega

@[simp] theorem decChar_decOperand (c : Byte) : decChar (decOperand c) = c.toNat := by
  have hc := c.isLt
  simp only [decChar, decOperand, bitField, toNat_append_eq_add, BitVec.toNat_ofNat]
  omega

/-- DEC of a digit that fits, as the register it sets. -/
theorem exec_dec_decOperand {s : State} {rd : Reg} {c : Byte} (hcap : s.cap rd ≤ s.maxDigits) (hlo : 0x30 ≤ c.toNat)
    (hhi : c.toNat ≤ 0x39) (hlen : len (s.val rd * 10 + (c.toNat - 0x30)) ≤ s.maxDigits) :
    exec (.dec rd (decOperand c)) s = .next (s.setReg rd (Mpr.ofValue (s.val rd * 10 + (c.toNat - 0x30))
      (max (s.cap rd) (len (s.val rd * 10 + (c.toNat - 0x30)))))).complete := by
  rw [exec_dec_digit (decBase_decOperand c) (by simpa) (by simpa), decChar_decOperand,
    s.finish_writeKeep_next rd hcap (Nat.zero_le _) hlen, Nat.max_zero]

/-- Settles O60: both ways end in a write of the same value to rd; the product is no longer than the sum, so the
capacities agree too. -/
theorem decEqualsMulwThenAddw : Obligations.DecEqualsMulwThenAddw := by
  intro s t rd c h hlo hhi hlen ht
  have hcap : s.cap rd ≤ s.maxDigits := h.cap_le rd
  cases (exec_dec_decOperand hcap hlo hhi hlen).symm.trans ht
  set d := c.toNat - 0x30
  have hd : (BitVec.ofNat 32 d).toNat = d := by rw [BitVec.toNat_ofNat, Nat.mod_eq_of_lt (by omega)]
  have hmono : len (s.val rd * 10) ≤ len (s.val rd * 10 + d) := len_mono (Nat.le_add_right _ _)
  have hmul : len (s.val rd * 10) ≤ s.maxDigits := hmono.trans hlen
  set u := (s.setReg rd (Mpr.ofValue (s.val rd * 10) (max (s.cap rd) (len (s.val rd * 10))))).complete with hu
  have huval : u.val rd = s.val rd * 10 := by
    rw [hu, State.val_setReg_complete, Mpr.val_ofValue (le_max_right _ _)]
  have hucap : u.cap rd = max (s.cap rd) (len (s.val rd * 10)) := by
    rw [hu, State.cap_setReg_complete, Mpr.cap_ofValue]
  have hroom : u.cap rd ≤ u.maxDigits := hucap.trans_le (max_le hcap hmul)
  have hsame : max (u.cap rd) (len (s.val rd * 10 + d)) = max (s.cap rd) (len (s.val rd * 10 + d)) := by
    rw [hucap, max_assoc, max_eq_right hmono]
  have mulw : exec (.mulw rd rd 10#32) s = .next u := by
    rw [exec_mulw, show (10#32).toNat = 10 from rfl, s.finish_writeKeep_next rd hcap hcap hmul, max_self]
  have addw : exec (.addw rd rd (BitVec.ofNat 32 d)) u = .next (u.setReg rd
      (Mpr.ofValue (s.val rd * 10 + d) (max (s.cap rd) (len (s.val rd * 10 + d))))).complete := by
    rw [exec_addw, huval, hd, u.finish_writeKeep_next rd hroom hroom hlen, max_self, hsame]
  exact ⟨u, _, mulw, addw, by simp [hu]⟩

end Sys2Proof.Machine
end

section
/-! SUPPORT. ISSUE (70_reset_and_hazards.md R276) as a run: the writes are accepted, every poll reads the same STATUS,
the CORE step executes the instruction, and the last read logs what it left. -/

namespace Sys2Proof.Machine

/-- The word of an instruction decodes to it with the operand the HOST latched, which an instruction without one
ignores (30_encoding.md R81, R84). -/
theorem decode_word_immOperand {i : Instr} (hwf : i.wf = true) (imm : Word) :
    decode ⟨(encode i).word, i.immOperand.getD imm⟩ = .ok i := by
  cases i
  case divmod rd rd2 rs1 rs2 =>
    have hne : rd ≠ rd2 := by simpa [Instr.wf] using hwf
    exact (decode_commandWord (by decide) ..).trans (by simp [decodeFields, hne])
  all_goals exact decode_commandWord (by decide) ..

/-- Every step keeps the invariant, so every run does. -/
theorem State.Inv.runFor {n : Nat} {s t : State} (h : s.Inv) (ht : runFor n s = .next t) : t.Inv := by
  induction n generalizing s with
  | zero => cases ht; exact h
  | succ n ih =>
    cases hs : step s with
    | next u =>
      rw [runFor_succ_of_next hs] at ht
      exact ih (stepKeepsInvariant s u h hs) ht
    | fault r => exact absurd ht (runFor_succ_ne (by simp [hs]) n t)
    | refused r => exact absurd ht (runFor_succ_ne (by simp [hs]) n t)

/-- Reads of one register, any number of them, log one and the same word. -/
theorem runFor_reads {s : State} {r : WindowReg} {n : Nat} {rest : List Event} {w : Word}
    (hs : s.schedule = List.replicate n (Config.reads s.config r) ++ rest) (hw : s.readWindow r = w) :
    runFor n s = .next { s with schedule := rest, reads := List.replicate n w ++ s.reads } := by
  induction n generalizing s with
  | zero => subst hs; rfl
  | succ n ih =>
    have hw' (es : List Event) : (State.hostRead { s with schedule := es } r).readWindow r = w := by
      cases r <;> exact hw
    rw [runFor_succ_of_next (step_read hs), ih rfl (hw' _), List.replicate_succ', List.append_assoc, ← hw]
    rfl

/-- The state after the writes of ISSUE: the operand is in IMM and the command is pending. -/
def State.accept (s : State) (i : Instr) : State :=
  State.latch { s with imm := i.immOperand.getD s.imm } ⟨(encode i).word, i.immOperand.getD s.imm⟩

theorem runFor_issueWrites {s : State} {i : Instr} {rest : List Event} (hp : s.pending = none) (hf : s.fault = false)
    (hs : s.schedule = Config.issueWrites s.config i ++ rest) :
    runFor (Config.issueWrites s.config i).length s = .next { s.accept i with schedule := rest } := by
  cases hi : i.immOperand with
  | none =>
    simp only [Config.issueWrites, hi] at hs ⊢
    rw [List.length_singleton, runFor_succ_of_next (step_write hs), runFor_zero]
    simp [State.writeWindow, State.submit, State.busy, hp, hf, State.accept, hi, State.latch]
  | some imm =>
    simp only [Config.issueWrites, hi] at hs ⊢
    rw [List.length_cons, List.length_singleton, runFor_succ_of_next (step_write hs),
      runFor_succ_of_next (step_write rfl), runFor_zero]
    simp [State.writeWindow, State.submit, State.busy, hp, hf, State.accept, hi, State.latch]

/-- The state in which the CORE step of ISSUE executes the command, after the polls (70_reset_and_hazards.md R276). -/
def State.issued (s : State) (i : Instr) (polls : Nat) (rest : List Event) : State :=
  { s.accept i with
    schedule := Config.reads s.config .status :: rest
    reads := List.replicate polls (s.accept i).statusWord ++ s.reads }

/-- ISSUE from an idle core without a fault executes the instruction once, and its last read logs the STATUS left. -/
theorem runFor_issue {s : State} {i : Instr} {polls : Nat} {rest : List Event} (hwf : i.wf = true)
    (hp : s.pending = none) (hf : s.fault = false) (hs : s.schedule = Config.issue s.config i polls ++ rest) :
    ∃ t, exec i (s.issued i polls rest) = .next t ∧ t.pending = none ∧
      runFor (Config.issue s.config i polls).length s = .next (State.hostRead { t with schedule := rest } .status) := by
  set u := s.issued i polls rest
  have hcore : u.coreStep = exec i u := State.coreStep_decoded rfl (decode_word_immOperand hwf s.imm)
  obtain ⟨t, ht⟩ := u.coreStep_next
  obtain ⟨hsched, hconf, hpend⟩ := State.coreStep_leaves ht
  have turn : step { u with schedule := .coreTurn :: u.schedule } = .next t := ht
  have read : step t = .next (State.hostRead { t with schedule := rest } .status) :=
    step_read (hsched.trans (by rw [hconf]; rfl))
  have writes := runFor_issueWrites (i := i) hp hf (rest := List.replicate polls (Config.reads s.config .status) ++
    (.coreTurn :: Config.reads s.config .status :: rest)) (by rw [hs]; simp [Config.issue])
  refine ⟨t, hcore.symm.trans ht, hpend, ?_⟩
  rw [Config.issue, List.length_append, List.length_append, List.length_replicate, Nat.add_assoc, runFor_add writes,
    runFor_add (runFor_reads (r := .status) rfl rfl)]
  exact (runFor_succ_of_next turn 1).trans (runFor_succ_of_next read 0)

end Sys2Proof.Machine
end

section
/-! SUPPORT. PARSE (42_conversions.md R135): INIT gives the value of the empty string, and each DEC of a digit that fits
takes the value of a string to that of the string with the digit appended. -/

namespace Sys2Proof.Machine

/-! ## Strings of digits, and the programs that parse them -/

theorem decimalValue_concat (text : List Byte) (c : Byte) :
    decimalValue (text ++ [c]) = decimalValue text * 10 + (c.toNat - 0x30) := by
  simp [decimalValue]

theorem allDigits_concat (text : List Byte) (c : Byte) :
    allDigits (text ++ [c]) = true ↔ allDigits text = true ∧ 0x30 ≤ c.toNat ∧ c.toNat ≤ 0x39 := by
  simp [allDigits]

theorem Config.issueAll_concat (c : Config) (program : List (Instr × Nat)) (i : Instr) (polls : Nat) :
    Config.issueAll c (program ++ [(i, polls)]) = Config.issueAll c program ++ Config.issue c i polls := by
  simp

theorem map_fst_expand_parse_nil {program : List (Instr × Nat)} {rd : Reg}
    (h : program.map Prod.fst = Pseudo.expand (.parse rd [])) : ∃ polls, program = [(.init rd, polls)] := by
  obtain ⟨⟨i, polls⟩, rfl, rfl⟩ := List.map_eq_singleton_iff.1 h
  exact ⟨polls, rfl⟩

/-- The last command of a parse is the DEC of the last character, with polls of its own. -/
theorem map_fst_expand_parse_concat {program : List (Instr × Nat)} {rd : Reg} {text : List Byte} {c : Byte}
    (h : program.map Prod.fst = Pseudo.expand (.parse rd (text ++ [c]))) :
    ∃ init polls, program = init ++ [(.dec rd (decOperand c), polls)] ∧
      init.map Prod.fst = Pseudo.expand (.parse rd text) := by
  have happ : program.map Prod.fst = Pseudo.expand (.parse rd text) ++ [.dec rd (decOperand c)] := by
    simpa [Pseudo.expand] using h
  obtain ⟨init, last, rfl, hinit, hlast⟩ := List.map_eq_append_iff.1 happ
  obtain ⟨⟨i, polls⟩, rfl, rfl⟩ := List.map_eq_singleton_iff.1 hlast
  exact ⟨init, polls, rfl, hinit⟩

/-! ## The commands of a parse, issued -/

/-- The machine between two commands of a parse: idle and without a fault, rd holds v in canonical form, and the
events of rest are still to come. -/
structure State.Parsed (s : State) (c : Config) (rd : Reg) (v : Nat) (rest : List Event) : Prop where
  inv : s.Inv
  config : s.config = c
  idle : s.pending = none
  clean : s.fault = false
  val : s.val rd = v
  cap : s.cap rd = len v
  schedule : s.schedule = rest

/-- INIT gives the value of the empty string. -/
theorem runFor_issue_init {s : State} {rd : Reg} {polls : Nat} {rest : List Event} (h : s.Inv) (hp : s.pending = none)
    (hf : s.fault = false) (hs : s.schedule = Config.issue s.config (.init rd) polls ++ rest) :
    ∃ t, runFor (Config.issue s.config (.init rd) polls).length s = .next t ∧ t.Parsed s.config rd 0 rest := by
  obtain ⟨t, ht, -, hrun⟩ := runFor_issue rfl hp hf hs
  set u := s.issued (.init rd) polls rest
  have hexec : exec (.init rd) u = .next (u.setReg rd Mpr.empty).complete := rfl
  cases hexec.symm.trans ht
  exact ⟨_, hrun, h.runFor hrun, rfl, rfl, hf, u.val_setReg_complete rd Mpr.empty,
    u.cap_setReg_complete rd Mpr.empty, rfl⟩

/-- DEC of a digit that fits appends it; the canonical form stays, since appending a digit does not shorten. -/
theorem State.Parsed.runFor_issue_digit {s : State} {conf : Config} {rd : Reg} {v polls : Nat} {c : Byte}
    {rest : List Event} (h : s.Parsed conf rd v (Config.issue conf (.dec rd (decOperand c)) polls ++ rest))
    (hlo : 0x30 ≤ c.toNat) (hhi : c.toNat ≤ 0x39) (hlen : len (v * 10 + (c.toNat - 0x30)) ≤ conf.maxDigits) :
    ∃ t, runFor (Config.issue conf (.dec rd (decOperand c)) polls).length s = .next t ∧
      t.Parsed conf rd (v * 10 + (c.toNat - 0x30)) rest := by
  obtain ⟨hinv, rfl, hidle, hclean, rfl, hcap, hsched⟩ := h
  obtain ⟨t, ht, -, hrun⟩ := runFor_issue rfl hidle hclean hsched
  set u := s.issued (.dec rd (decOperand c)) polls rest
  set w := s.val rd * 10 + (c.toNat - 0x30)
  have hroom : max (s.cap rd) (len w) = len w := max_eq_right (hcap.trans_le (len_mono (by omega)))
  have hexec : exec (.dec rd (decOperand c)) u = .next (u.setReg rd (Mpr.ofValue w (max (s.cap rd) (len w)))).complete :=
    exec_dec_decOperand (s := u) (hinv.cap_le rd) hlo hhi hlen
  rw [hroom] at hexec
  cases hexec.symm.trans ht
  exact ⟨_, hrun, hinv.runFor hrun, rfl, rfl, hclean,
    (u.val_setReg_complete rd _).trans (Mpr.val_ofValue le_rfl), (u.cap_setReg_complete rd _).trans (Mpr.cap_ofValue ..),
    rfl⟩

/-- DEC of any other character faults BADDIGIT and keeps rd. -/
theorem State.Parsed.runFor_issue_badDigit {s : State} {conf : Config} {rd : Reg} {v polls : Nat} {c : Byte}
    {rest : List Event} (h : s.Parsed conf rd v (Config.issue conf (.dec rd (decOperand c)) polls ++ rest))
    (hc : c.toNat < 0x30 ∨ 0x39 < c.toNat) :
    ∃ t, runFor (Config.issue conf (.dec rd (decOperand c)) polls).length s = .next t ∧ t.fault = true ∧
      t.fcode = 0x06#8 ∧ t.val rd = v ∧ t.pending = none ∧ t.schedule = rest := by
  obtain ⟨-, rfl, hidle, hclean, hval, -, hsched⟩ := h
  obtain ⟨t, ht, -, hrun⟩ := runFor_issue rfl hidle hclean hsched
  cases (exec_dec_badDigit (decBase_decOperand c) (by simpa using hc) rd _).symm.trans ht
  exact ⟨_, hrun, rfl, rfl, hval, rfl, rfl⟩

/-- The parse of a string of digits whose value fits, by induction on the string from its end. -/
theorem runFor_parse {s : State} {rd : Reg} {text : List Byte} {program : List (Instr × Nat)} {rest : List Event}
    (h : s.Inv) (hp : s.pending = none) (hf : s.fault = false) (hdigits : allDigits text = true)
    (hlen : len (decimalValue text) ≤ s.maxDigits) (hs : s.schedule = Config.issueAll s.config program ++ rest)
    (hprog : program.map Prod.fst = Pseudo.expand (.parse rd text)) :
    ∃ t, runFor (Config.issueAll s.config program).length s = .next t ∧
      t.Parsed s.config rd (decimalValue text) rest := by
  induction text using List.reverseRecOn generalizing program rest with
  | nil =>
    obtain ⟨polls, rfl⟩ := map_fst_expand_parse_nil hprog
    have hone : Config.issueAll s.config [(.init rd, polls)] = Config.issue s.config (.init rd) polls := by simp
    rw [hone] at hs ⊢
    exact runFor_issue_init h hp hf hs
  | append_singleton text c ih =>
    obtain ⟨init, polls, rfl, hinit⟩ := map_fst_expand_parse_concat hprog
    obtain ⟨htext, hlo, hhi⟩ := (allDigits_concat text c).1 hdigits
    rw [decimalValue_concat] at hlen ⊢
    have hshort : len (decimalValue text) ≤ s.maxDigits := (len_mono (by omega)).trans hlen
    rw [Config.issueAll_concat, List.append_assoc] at hs
    obtain ⟨t, hrun, hparsed⟩ := ih htext hshort hs hinit
    obtain ⟨u, hlast, hu⟩ := hparsed.runFor_issue_digit hlo hhi hlen
    rw [Config.issueAll_concat, List.length_append, runFor_add hrun]
    exact ⟨u, hlast, hu⟩

/-- Settles O59: the parse of the digits; a character that is no digit comes after it as one more DEC. -/
theorem parseGivesDecimalValue : Obligations.ParseGivesDecimalValue := by
  intro s rd text program rest h hp hf hdigits hlen hs
  refine ⟨fun hprog => ?_, fun c hc hprog => ?_⟩
  · obtain ⟨t, hrun, -, -, hidle, hclean, hval, hcap, hsched⟩ := runFor_parse h hp hf hdigits hlen hs hprog
    exact ⟨t, hrun, hval, hcap, hclean, hidle, hsched⟩
  · obtain ⟨init, polls, rfl, hinit⟩ := map_fst_expand_parse_concat hprog
    rw [Config.issueAll_concat, List.append_assoc] at hs
    obtain ⟨t, hrun, hparsed⟩ := runFor_parse h hp hf hdigits hlen hs hinit
    rw [Config.issueAll_concat, List.length_append, runFor_add hrun]
    exact hparsed.runFor_issue_badDigit hc

end Sys2Proof.Machine
end

section
/-! SUPPORT. The word arithmetic commands (43_word_arith.md R151 to R153): each ends in one WRITE_KEEP, of a word, a sum
or a product. -/

namespace Sys2Proof.Machine

/-- The digits of a word in two digits or more are those of CMPW (R151; 42_conversions.md R132). -/
theorem Mpr.digit_ofValue_word (w : Word) {n : Nat} (hn : 2 ≤ n) (j : Nat) :
    (Mpr.ofValue w.toNat n).digit j = wordDigit w.toNat j := by
  rw [(Mpr.fits_ofValue le_rfl).digit_eq, Mpr.val_ofValue ((len_word w).trans hn), wordDigit_eq w.isLt]

theorem exec_setw (rd : Reg) (imm : Word) (s : State) :
    exec (.setw rd imm) s = s.finish (s.writeKeep rd imm.toNat 2) := rfl

/-- With the capacity of a register requested, WRITE_KEEP completes or raises CAPACITY by the length of the value alone,
since no register is longer than MAX_DIGITS (10_state.md R27). -/
theorem State.Inv.finish_writeKeep_cap {s : State} (h : s.Inv) (rd rs : Reg) (v : Nat) :
    (len v ≤ s.maxDigits → ∃ t, s.finish (s.writeKeep rd v (s.cap rs)) = .next t ∧ WritesOnly rd s t ∧ t.val rd = v ∧
      t.cap rd = max (max (s.cap rd) (s.cap rs)) (len v)) ∧
    (s.maxDigits < len v → s.finish (s.writeKeep rd v (s.cap rs)) = .next (s.takeFault .capacity)) := by
  refine ⟨fun hfits => ?_, fun hlong => ?_⟩
  · obtain ⟨t, ht, hframe, hval, hcap, -⟩ := State.finish_writeKeep h rd (h.cap_le rs) hfits
    exact ⟨t, ht, hframe, hval, hcap⟩
  · rw [s.writeKeep_capacity rd (.inr hlong), State.finish_error]

/-- Settles O43: a word has at most two digits and MAX_DIGITS is at least 3, so the WRITE_KEEP always completes. -/
theorem setwSetsWord : Obligations.SetwSetsWord := by
  intro s rd imm h
  have htwo : 2 ≤ s.maxDigits := Nat.le_of_succ_le h.three_le
  have hroom : 2 ≤ max (s.cap rd) 2 := le_max_right _ _
  have hlen : len imm.toNat ≤ max (s.cap rd) 2 := (len_word imm).trans hroom
  obtain ⟨t, ht, hframe, hval, hcap, hreg⟩ := State.finish_writeKeep h rd htwo ((len_word imm).trans htwo)
  rw [max_eq_left hlen] at hcap hreg
  have hdigit (j : Nat) : (t.reg rd).digit j = wordDigit imm.toNat j := by rw [hreg, Mpr.digit_ofValue_word imm hroom]
  refine ⟨decode_commandWord (by decide) .., t, (exec_setw rd imm s).trans ht, hframe, hval, hcap, hdigit 0, hdigit 1,
    fun j hj => ?_⟩
  obtain ⟨k, rfl⟩ := Nat.exists_eq_add_of_le' hj
  exact hdigit (k + 2)

/-- Settles O44: the carry chain gives the sum, and ADDW keeps it with the capacity of rs1 requested. -/
theorem addwAddsWord : Obligations.AddwAddsWord := by
  intro s rd rs1 imm h
  rw [exec_addw]
  exact ⟨decode_commandWord (by decide) .., h.finish_writeKeep_cap rd rs1 _⟩

/-- Settles O45: the schoolbook multiplication gives the product, and MULW keeps it with the capacity of rs1
requested. -/
theorem mulwMultipliesByWord : Obligations.MulwMultipliesByWord := by
  intro s rd rs1 imm h
  rw [exec_mulw]
  exact ⟨decode_commandWord (by decide) .., h.finish_writeKeep_cap rd rs1 _⟩

end Sys2Proof.Machine
end

section
/-! SUPPORT. The multi-precision arithmetic commands (44_mp_arith.md R171 to R173): each as one operation on the values
of its operands, with what the values alone say of it. -/

namespace Sys2Proof.Machine

/-! ## The commands on values -/

/-- WRITE_COMPACT completes or raises CAPACITY by the length of the value alone (10_state.md R28). -/
theorem State.finish_writeCompact_len (s : State) (rd : Reg) (v : Nat) :
    (len v ≤ s.maxDigits → ∃ t, s.finish (s.writeCompact rd v) = .next t ∧ WritesOnly rd s t ∧ t.val rd = v ∧
      t.cap rd = len v) ∧
    (s.maxDigits < len v → s.finish (s.writeCompact rd v) = .next (s.takeFault .capacity)) := by
  refine ⟨fun hfits => ?_, fun hlong => ?_⟩
  · obtain ⟨t, ht, hframe, hval, hcap, -⟩ := State.finish_writeCompact rd hfits
    exact ⟨t, ht, hframe, hval, hcap⟩
  · rw [s.writeCompact_capacity rd hlong, State.finish_error]

theorem exec_mul {s : State} (h : s.Inv) (rd rs1 rs2 : Reg) :
    exec (.mul rd rs1 rs2) s = s.finish (s.writeCompact rd (s.val rs1 * s.val rs2)) := by
  rw [exec, execMul, mulNaive_value (h.regs_fit rs1) (h.regs_fit rs2), State.val, State.val]

/-- Where the minuend is the smaller value the borrow escapes. -/
theorem exec_sub_of_lt {s : State} (h : s.Inv) (rd : Reg) {rs1 rs2 : Reg} (hlt : s.val rs1 < s.val rs2) :
    exec (.sub rd rs1 rs2) s = .next (s.takeFault .negative) := by
  obtain ⟨hborrow, -⟩ := borrowChain_sub (h.regs_fit rs1) (h.regs_fit rs2)
  simp only [exec, execSub]
  rw [State.cap, State.cap, if_pos (hborrow.2 hlt), State.finish_error]

/-- Otherwise no borrow escapes and the chain gives the difference. -/
theorem exec_sub_of_le {s : State} (h : s.Inv) (rd : Reg) {rs1 rs2 : Reg} (hle : s.val rs2 ≤ s.val rs1) :
    exec (.sub rd rs1 rs2) s = s.finish (s.writeCompact rd (s.val rs1 - s.val rs2)) := by
  obtain ⟨hborrow, hdiff⟩ := borrowChain_sub (h.regs_fit rs1) (h.regs_fit rs2)
  simp only [exec, execSub]
  rw [State.cap, State.cap, if_neg (mt hborrow.1 (not_lt.2 hle)), hdiff hle, State.val, State.val]

theorem exec_cmp {s : State} (h : s.Inv) (rs1 rs2 : Reg) :
    exec (.cmp rs1 rs2) s = .next (s.setResult (encodeOrdering (cmp3 (s.val rs1) (s.val rs2)))).complete := by
  rw [exec, execCmp, State.cap, State.cap, compareDown_val (h.regs_fit rs1) (h.regs_fit rs2), State.finish_ok, State.val,
    State.val]

/-! ## The three-way result under a swap of the operands (00_scope.md R12) -/

theorem cmp3_swap (a b : Nat) : (cmp3 a b).swap = cmp3 b a := by
  rcases lt_trichotomy a b with h | rfl | h
  · rw [cmp3_lt h, cmp3_gt h, Ordering.swap]
  · simp [cmp3]
  · rw [cmp3_gt h, cmp3_lt h, Ordering.swap]

/-- RESULT holds -1, 0 and +1 in two's complement, so it is negated with the order. -/
theorem encodeOrdering_swap (o : Ordering) : encodeOrdering o.swap = -encodeOrdering o := by
  cases o <;> rfl

/-! ## The statements -/

/-- Settles O46: the schoolbook product has the product's value, and its length decides between the canonical write and
CAPACITY. -/
theorem mulMultipliesValues : Obligations.MulMultipliesValues := by
  intro s rd rs1 rs2 x h
  rw [exec_mul h]
  exact ⟨decode_commandWord (by decide) .., s.finish_writeCompact_len rd _⟩

/-- Settles O47: the difference is no longer than the minuend, which fits, so its write always completes. -/
theorem subSubtractsOrFaultsNegative : Obligations.SubSubtractsOrFaultsNegative := by
  intro s rd rs1 rs2 x h
  refine ⟨decode_commandWord (by decide) .., fun hle => ?_, exec_sub_of_lt h rd⟩
  have hlen : len (s.val rs1 - s.val rs2) ≤ s.maxDigits := (len_mono (Nat.sub_le _ _)).trans (h.len_val_le rs1)
  rw [exec_sub_of_le h rd hle]
  exact (s.finish_writeCompact_len rd _).1 hlen

/-- Settles O48: the digit comparison is the comparison of the values. -/
theorem cmpComparesValues : Obligations.CmpComparesValues := by
  intro s rs1 rs2 x h
  exact ⟨decode_commandWord (by decide) .., _, _, exec_cmp h rs1 rs2, returnsOnly_setResult .., encodeOrdering_cmp3 ..⟩

/-- Settles O49: the two results encode swapped orderings of the same two values. -/
theorem cmpSwapNegatesResult : Obligations.CmpSwapNegatesResult := by
  intro s t u rs1 rs2 h ht hu
  cases (exec_cmp h rs1 rs2).symm.trans ht
  cases (exec_cmp h rs2 rs1).symm.trans hu
  rw [State.complete_result, State.setResult_result, State.complete_result, State.setResult_result, ← cmp3_swap,
    encodeOrdering_swap]

/-- Settles O50: MUL depends on its factors only through the product of their values. -/
theorem mulIsCommutative : Obligations.MulIsCommutative := by
  intro s rd rs1 rs2 h
  rw [exec_mul h, exec_mul h, Nat.mul_comm]

end Sys2Proof.Machine
end

section
/-! SUPPORT. The bit operation commands (45_bit_ops.md R191 to R193): TESTBIT and SHL on the value of their operand, and
the register SETBIT leaves. -/

namespace Sys2Proof.Machine

/-! ## TESTBIT (R191) -/

theorem exec_testbit {s : State} (h : s.Inv) (rs1 : Reg) (imm : Word) :
    exec (.testbit rs1 imm) s =
      .next (s.setResult (if (s.val rs1).testBit imm.toNat then 1#32 else 0#32)).complete := by
  rw [exec, execTestbit, digit_bit (h.regs_fit rs1), State.finish_ok, ← Nat.toNat_testBit, State.val]
  cases (s.reg rs1).val.testBit imm.toNat <;> rfl

/-- No bit of the value stands at or above 31 times the capacity (10_state.md R22, R24). -/
theorem Mpr.Fits.testBit_of_cap_le {k i : Nat} {m : Mpr} (hm : m.Fits k) (hi : 31 * m.cap ≤ i) :
    m.val.testBit i = false := by
  have hlt : m.val < 2 ^ (31 * m.cap) := lt_two_pow_iff_len_le.2 hm.len_val_le
  exact Nat.testBit_lt_two_pow (hlt.trans_le (Nat.pow_le_pow_right (by decide) hi))

/-- Settles O51: the digit and the position R191 reads are bit imm of the value, and the value has no bit beyond the
capacity. -/
theorem testbitReturnsBit : Obligations.TestbitReturnsBit := by
  intro s rs1 imm h
  refine ⟨decode_commandWord (by decide) .., _, _, exec_testbit h rs1 imm, returnsOnly_setResult .., rfl, fun hi => ?_⟩
  have hbit : (s.val rs1).testBit imm.toNat = false := (h.regs_fit rs1).testBit_of_cap_le hi
  rw [hbit, if_neg Bool.false_ne_true]

/-! ## SETBIT (R192) -/

/-- The value with bit i set is as long as the value or as bit i needs. -/
theorem len_or_bit (v i : Nat) : len (v ||| 1 <<< i) = max (len v) (i / 31 + 1) := by
  have hbit : len (1 <<< i) = i / 31 + 1 := by
    rw [Nat.one_shiftLeft, len, if_neg (by positivity), Nat.log2_two_pow]
  refine le_antisymm (len_setBit (lt_radix_pow_len v)) (max_le (len_mono Nat.left_le_or) ?_)
  rw [← hbit]
  exact len_mono Nat.right_le_or

theorem or_bit_of_testBit {v i : Nat} (h : v.testBit i = true) : v ||| 1 <<< i = v := by
  refine Nat.eq_of_testBit_eq fun j => ?_
  rw [Nat.testBit_or, Nat.one_shiftLeft, Nat.testBit_two_pow]
  by_cases hj : i = j
  · subst hj; simp [h]
  · simp [hj]

/-- The register SETBIT leaves: bit i of the value set, in the digits of the register and those that cover the bit. -/
def Mpr.setBit (m : Mpr) (i : Nat) : Mpr := Mpr.ofValue (m.val ||| 1 <<< i) (max m.cap (i / 31 + 1))

@[simp] theorem Mpr.cap_setBit (m : Mpr) (i : Nat) : (m.setBit i).cap = max m.cap (i / 31 + 1) := Mpr.cap_ofValue ..

section
variable {k : Nat} {m : Mpr} (hm : m.Fits k)
include hm

theorem Mpr.Fits.val_setBit (i : Nat) : (m.setBit i).val = m.val ||| 1 <<< i :=
  Mpr.val_ofValue (len_setBit hm.val_lt)

theorem Mpr.Fits.testBit_setBit (i j : Nat) : (m.setBit i).val.testBit j = (decide (j = i) || m.val.testBit j) := by
  rw [hm.val_setBit, Nat.testBit_or, Nat.one_shiftLeft, Nat.testBit_two_pow, Bool.or_comm, decide_eq_decide.2 eq_comm]

/-- Bit i lies in the top digit of a register it makes longer, so the canonical form stays (10_state.md R26). -/
theorem Mpr.Fits.canonical_setBit (hc : m.canonical = true) (i : Nat) : (m.setBit i).canonical = true := by
  have hcap : m.cap = len m.val := beq_iff_eq.1 hc
  rw [Mpr.canonical, beq_iff_eq, Mpr.cap_setBit, hm.val_setBit, len_or_bit, hcap]

/-- A bit of the value lies within the capacity already. -/
theorem Mpr.Fits.setBit_of_testBit {i : Nat} (hbit : m.val.testBit i = true) : m.setBit i = m := by
  have hor : m.val ||| 1 <<< i = m.val := or_bit_of_testBit hbit
  have hlen : len m.val = max (len m.val) (i / 31 + 1) := by rw [← len_or_bit, hor]
  have hroom : i / 31 + 1 ≤ m.cap := (max_eq_left_iff.1 hlen.symm).trans hm.len_val_le
  rw [Mpr.setBit, hor, max_eq_left hroom, Mpr.ofValue_val hm]

end

/-- R192's write when its check passes: the value needs no more digits than the register and the bit do. -/
theorem exec_setbit {s : State} (h : s.Inv) (rd : Reg) {imm : Word} (hneed : imm.toNat / 31 + 1 ≤ s.maxDigits) :
    exec (.setbit rd imm) s = .next (s.setReg rd ((s.reg rd).setBit imm.toNat)).complete := by
  have hlen : len (s.val rd ||| 1 <<< imm.toNat) ≤ max (s.cap rd) (imm.toNat / 31 + 1) :=
    len_setBit (h.regs_fit rd).val_lt
  have hfits := hlen.trans (max_le (h.cap_le rd) hneed)
  rw [exec, execSetbit, s.finish_writeKeep_next rd (h.cap_le rd) hneed hfits, max_eq_left hlen]
  rfl

theorem exec_setbit_capacity {s : State} (rd : Reg) {imm : Word} (hneed : s.maxDigits < imm.toNat / 31 + 1) :
    exec (.setbit rd imm) s = .next (s.takeFault .capacity) := by
  rw [exec, execSetbit, s.writeKeep_capacity rd (.inl hneed), State.finish_error]

/-- Settles O52: each clause is a fact of the register with the bit set; the check of R192 is on the index alone. -/
theorem setbitSetsBit : Obligations.SetbitSetsBit := by
  intro s rd imm h
  have hfit := h.regs_fit rd
  have hreg : (s.setReg rd ((s.reg rd).setBit imm.toNat)).complete.reg rd = (s.reg rd).setBit imm.toNat := by simp
  refine ⟨decode_commandWord (by decide) .., fun hneed => ⟨_, exec_setbit h rd hneed, .setReg_complete .., fun j => ?_,
    ?_, fun hc => ?_, fun hbit => ?_⟩, exec_setbit_capacity rd⟩
  · rw [State.val_setReg_complete]; exact hfit.testBit_setBit ..
  · rw [State.cap_setReg_complete]; exact Mpr.cap_setBit ..
  · rw [hreg]; exact hfit.canonical_setBit hc _
  · rw [hfit.setBit_of_testBit hbit, State.setReg_reg, State.complete_regs]

/-! ## SHL (R193) -/

/-- The zero case and the early check of log 9 are cases of the one WRITE_COMPACT of the product (10_state.md R28). -/
theorem exec_shl {s : State} (h : s.Inv) (rd rs1 : Reg) (imm : Word) :
    exec (.shl rd rs1 imm) s = s.finish (s.writeCompact rd (s.val rs1 * 2 ^ imm.toNat)) := by
  rw [exec, execShl, shiftedLen_eq, shlDigits_value (h.regs_fit rs1), ← State.val]
  split
  next hzero => rw [hzero, Nat.zero_mul]
  next =>
    split
    next hlong => rw [s.writeCompact_capacity rd hlong]
    next => rfl

/-- Settles O53: the length of the product decides between the canonical write and CAPACITY, and the product of a zero
value has length 0. -/
theorem shlMultipliesByPowerOfTwo : Obligations.ShlMultipliesByPowerOfTwo := by
  intro s rd rs1 imm h
  rw [exec_shl h]
  obtain ⟨hfits, hlong⟩ := s.finish_writeCompact_len rd (s.val rs1 * 2 ^ imm.toNat)
  refine ⟨decode_commandWord (by decide) .., hfits, hlong, fun hzero => ?_⟩
  rw [hzero, Nat.zero_mul, len_zero] at hfits
  rw [hzero, Nat.zero_mul]
  obtain ⟨t, ht, -, hval, hcap⟩ := hfits (Nat.zero_le _)
  exact ⟨t, ht, hval, hcap⟩

end Sys2Proof.Machine
end

section
/-! SUPPORT. The division and GCD commands (46_division.md R211 to R214): each as its result writes on the values of its
operands, and the laws the results obey. -/

namespace Sys2Proof.Machine

/-! ## DIVMOD (R211, R212) -/

theorem decode_divmod (rd rd2 rs1 rs2 : Reg) (imm : Word) :
    decode ⟨commandWord 0x28 rd rs1 rs2 rd2, imm⟩ =
      if rd = rd2 then .error .sameDestinations else .ok (.divmod rd rd2 rs1 rs2) := by
  rw [decode_commandWord (by decide)]
  simp [decodeFields]

theorem exec_divmod_zero {s : State} {rs2 : Reg} (hzero : s.val rs2 = 0) (rd rd2 rs1 : Reg) :
    exec (.divmod rd rd2 rs1 rs2) s = .next (s.takeFault .divZero) := by
  rw [exec, execDivmod, if_pos hzero, State.finish_error]

/-- All bit positions of the dividend register cover the dividend, so the loop gives quotient and remainder. -/
theorem exec_divmod {s : State} (h : s.Inv) {rs2 : Reg} (hd : s.val rs2 ≠ 0) (rd rd2 rs1 : Reg) :
    exec (.divmod rd rd2 rs1 rs2) s =
      s.finish (s.writeCompactPair rd (s.val rs1 / s.val rs2) rd2 (s.val rs1 % s.val rs2)) := by
  have hloop : longDivision (s.val rs1) (s.val rs2) (31 * s.cap rs1) 0 0 =
      (s.val rs1 / s.val rs2, s.val rs1 % s.val rs2) :=
    longDivision_val (h.regs_fit rs1) (Nat.pos_of_ne_zero hd)
  rw [exec, execDivmod, if_neg hd, hloop]

/-- A command that ends in two canonical writes of values that fit, to two different registers (10_state.md R28). -/
theorem State.finish_writeCompactPair (s : State) {i j : Reg} (hij : i ≠ j) {v w : Nat} (hv : len v ≤ s.maxDigits)
    (hw : len w ≤ s.maxDigits) :
    ∃ t, s.finish (s.writeCompactPair i v j w) = .next t ∧ t.val i = v ∧ t.cap i = len v ∧ t.val j = w ∧
      t.cap j = len w ∧ (∀ k : Reg, k ≠ i → k ≠ j → t.reg k = s.reg k) ∧
      t = { s with regs := t.regs, pending := none } := by
  rw [s.writeCompactPair_ok i j hv hw, State.finish_ok]
  have hregi : (((s.setReg i (Mpr.ofValue v (len v))).setReg j (Mpr.ofValue w (len w))).complete).reg i =
      Mpr.ofValue v (len v) := by
    rw [State.reg_complete, State.reg_setReg_ne _ hij, State.reg_setReg_self]
  refine ⟨_, rfl, ?_, ?_, ?_, ?_, fun k hki hkj => ?_, rfl⟩
  · rw [State.val, hregi, Mpr.val_ofValue le_rfl]
  · rw [State.cap, hregi, Mpr.cap_ofValue]
  · rw [State.val_setReg_complete, Mpr.val_ofValue le_rfl]
  · rw [State.cap_setReg_complete, Mpr.cap_ofValue]
  · rw [State.reg_complete, State.reg_setReg_ne _ hkj, State.reg_setReg_ne _ hki]

/-- Quotient and remainder are no longer than the dividend, which fits, so both writes always complete. -/
theorem exec_divmod_next {s : State} (h : s.Inv) {rd rd2 rs2 : Reg} (hne : rd ≠ rd2) (hd : s.val rs2 ≠ 0) (rs1 : Reg) :
    ∃ t, exec (.divmod rd rd2 rs1 rs2) s = .next t ∧
      t.val rd = s.val rs1 / s.val rs2 ∧ t.cap rd = len (s.val rs1 / s.val rs2) ∧
      t.val rd2 = s.val rs1 % s.val rs2 ∧ t.cap rd2 = len (s.val rs1 % s.val rs2) ∧
      (∀ j : Reg, j ≠ rd → j ≠ rd2 → t.reg j = s.reg j) ∧ t = { s with regs := t.regs, pending := none } := by
  have hlen {v : Nat} (hv : v ≤ s.val rs1) : len v ≤ s.maxDigits := (len_mono hv).trans (h.len_val_le rs1)
  rw [exec_divmod h hd]
  exact s.finish_writeCompactPair hne (hlen (Nat.div_le_self ..)) (hlen (Nat.mod_le ..))

/-- Settles O54: the divisor alone decides between the two canonical writes and DIVZERO. -/
theorem divmodDividesOrFaultsDivzero : Obligations.DivmodDividesOrFaultsDivzero := by
  intro s rd rd2 rs1 rs2 x h
  rw [decode_divmod]
  exact ⟨fun heq => if_pos heq, fun hne =>
    ⟨if_neg hne, fun hd => exec_divmod_next h hne hd rs1, fun hzero => exec_divmod_zero hzero rd rd2 rs1⟩⟩

/-- Settles O55: the pair is quotient and remainder of the division law, which determines both. -/
theorem divmodPairIsUnique : Obligations.DivmodPairIsUnique := by
  intro s rd rd2 rs1 rs2 h hne hd
  obtain ⟨t, ht, hq, -, hr, -⟩ := exec_divmod_next h hne (Nat.ne_zero_of_lt hd) rs1
  refine ⟨t, ht, ?_⟩
  rw [hq, hr]
  refine ⟨(Nat.div_add_mod' ..).symm, Nat.mod_lt _ hd, fun q r hlaw hlt => ?_⟩
  have hsum : r + s.val rs2 * q = s.val rs1 := by rw [hlaw, Nat.mul_comm, Nat.add_comm]
  obtain ⟨hdiv, hmod⟩ := (Nat.div_mod_unique hd).2 ⟨hsum, hlt⟩
  exact ⟨hdiv.symm, hmod.symm⟩

/-! ## GCD (R213, R214) -/

theorem exec_gcd_zero {s : State} {rs1 rs2 : Reg} (hzero : s.val rs1 = 0 ∨ s.val rs2 = 0) (rd : Reg) :
    exec (.gcd rd rs1 rs2) s = .next (s.takeFault .gcdZero) := by
  rw [exec, execGcd, if_pos hzero, State.finish_error]

/-- The remainders fall below the second operand, so the loop ends within its bound. -/
theorem exec_gcd {s : State} {rs1 rs2 : Reg} (h1 : s.val rs1 ≠ 0) (h2 : s.val rs2 ≠ 0) (rd : Reg) :
    exec (.gcd rd rs1 rs2) s = s.finish (s.writeCompact rd (Nat.gcd (s.val rs1) (s.val rs2))) := by
  rw [exec, execGcd, if_neg (not_or.2 ⟨h1, h2⟩), euclid_eq_gcd _ _ _ (Nat.lt_succ_self _)]

/-- The greatest common divisor is no longer than the first operand, which fits, so its write always completes. -/
theorem exec_gcd_next {s : State} (h : s.Inv) {rs1 rs2 : Reg} (h1 : s.val rs1 ≠ 0) (h2 : s.val rs2 ≠ 0) (rd : Reg) :
    ∃ t, exec (.gcd rd rs1 rs2) s = .next t ∧ WritesOnly rd s t ∧ t.val rd = Nat.gcd (s.val rs1) (s.val rs2) ∧
      t.cap rd = len (Nat.gcd (s.val rs1) (s.val rs2)) := by
  have hle : Nat.gcd (s.val rs1) (s.val rs2) ≤ s.val rs1 := Nat.gcd_le_left _ (Nat.pos_of_ne_zero h1)
  rw [exec_gcd h1 h2]
  exact (s.finish_writeCompact_len rd _).1 ((len_mono hle).trans (h.len_val_le rs1))

theorem val_of_exec_gcd {s t : State} (h : s.Inv) {rd rs1 rs2 : Reg} (h1 : s.val rs1 ≠ 0) (h2 : s.val rs2 ≠ 0)
    (ht : exec (.gcd rd rs1 rs2) s = .next t) : t.val rd = Nat.gcd (s.val rs1) (s.val rs2) := by
  obtain ⟨u, hu, -, hval, -⟩ := exec_gcd_next h h1 h2 rd
  cases hu.symm.trans ht
  exact hval

/-- Settles O56: Euclid's loop gives the greatest common divisor, and a zero operand alone decides for GCDZERO. -/
theorem gcdGivesGreatestCommonDivisor : Obligations.GcdGivesGreatestCommonDivisor := by
  intro s rd rs1 rs2 x h
  exact ⟨decode_commandWord (by decide) .., fun h1 h2 => exec_gcd_next h h1 h2 rd, fun hzero => exec_gcd_zero hzero rd⟩

/-- Settles O57: both runs leave the greatest common divisor of their operands, and Euclid's law is a law of the
values. -/
theorem gcdObeysEuclidLaws : Obligations.GcdObeysEuclidLaws := by
  intro s t rd rs1 rs2 h h1 h2 ht
  rw [val_of_exec_gcd h h1 h2 ht]
  refine ⟨Nat.gcd_dvd_left .., Nat.gcd_dvd_right .., fun hmod => Nat.gcd_eq_right (Nat.dvd_of_mod_eq_zero hmod), ?_⟩
  intro hmod s' t' rd' a b h' ha hb ht'
  have hval := val_of_exec_gcd h' (ha ▸ h2) (hb ▸ hmod) ht'
  calc t'.val rd' = Nat.gcd (s.val rs2) (s.val rs1 % s.val rs2) := by rw [hval, ha, hb]
    _ = Nat.gcd (s.val rs1 % s.val rs2) (s.val rs2) := Nat.gcd_comm ..
    _ = Nat.gcd (s.val rs2) (s.val rs1) := (Nat.gcd_rec ..).symm
    _ = Nat.gcd (s.val rs1) (s.val rs2) := Nat.gcd_comm ..

end Sys2Proof.Machine
end

section
/-! SUPPORT. Writes to CMD and CTRL (60_exceptions.md R243, R244; 10_state.md R32): a command is accepted or dropped, and
CLR returns from a fault. -/

namespace Sys2Proof.Machine

/-! ## CMD (R243) -/

@[simp] theorem State.submit_fault (s : State) (w : Word) : (s.submit w).fault = s.fault := by
  unfold State.submit; split <;> rfl

theorem step_cmd_dropped {s : State} {w : Word} {rest : List Event}
    (hs : s.schedule = Config.writes s.config .cmd w :: rest) (h : s.busy = true ∨ s.fault = true) :
    step s = .next { s with schedule := rest, drop := true } := by
  rw [step_write hs]
  exact congrArg _ (State.submit_dropped (s := { s with schedule := rest }) h w)

theorem step_cmd_accepted {s : State} {w : Word} {rest : List Event}
    (hs : s.schedule = Config.writes s.config .cmd w :: rest) (hp : s.pending = none) (hf : s.fault = false) :
    step s = .next { s with schedule := rest, pending := some ⟨w, s.imm⟩ } := by
  rw [step_write hs]
  exact congrArg _ (State.submit_accepted (s := { s with schedule := rest }) hp hf w)

/-- Settles O23: BUSY and FAULT decide between the two outcomes of a CMD write. -/
theorem cmdWriteIsAcceptedOrDropped : Obligations.CmdWriteIsAcceptedOrDropped := by
  intro s w rest hs
  refine ⟨step_cmd_dropped hs, fun ⟨hb, hf⟩ => ?_⟩
  have hidle : s.pending = none := by simpa [State.busy] using hb
  exact ⟨_, step_cmd_accepted hs hidle hf, rfl, rfl⟩

/-! ## CTRL (R32, R244) -/

theorem State.writeCtrl_clr (s : State) {w : Word} (hclear : bitField w 0 1 = 1) (hreset : bitField w 1 1 = 0) :
    s.writeCtrl w = s.clearFault := by
  rw [State.writeCtrl, if_neg (by omega), if_pos hclear]

/-- A write to CTRL by its two bits: SRESET resets, and without it CLR clears; with neither the write has no effect. -/
theorem State.writeCtrl_cases (s : State) (w : Word) :
    (bitField w 1 1 = 1 ∧ s.writeCtrl w = s.resetCore) ∨
    (bitField w 0 1 = 1 ∧ bitField w 1 1 = 0 ∧ s.writeCtrl w = s.clearFault) ∨
    s.writeCtrl w = s := by
  by_cases hreset : bitField w 1 1 = 1
  · exact .inl ⟨hreset, s.writeCtrl_sreset hreset⟩
  · have hbit : bitField w 1 1 < 2 := Nat.mod_lt _ (by decide)
    have hzero : bitField w 1 1 = 0 := by omega
    by_cases hclear : bitField w 0 1 = 1
    · exact .inr (.inl ⟨hclear, hzero, s.writeCtrl_clr hclear hzero⟩)
    · exact .inr (.inr (by rw [State.writeCtrl, if_neg hreset, if_neg hclear]))

@[simp] theorem State.clearFault_pending (s : State) : s.clearFault.pending = s.pending := by
  unfold State.clearFault; split <;> rfl

theorem State.fault_of_clearFault {s : State} (h : s.clearFault.fault = true) : s.fault = true := by
  cases hfatal : s.fatal with
  | true => rwa [State.clearFault_fatal hfatal] at h
  | false => rw [State.clearFault_recoverable hfatal] at h; cases h

/-- A write with CLR and without SRESET is a step that returns from the fault. -/
theorem step_clear {s : State} {e : Event} {rest : List Event} (hs : s.schedule = e :: rest)
    (he : Config.isClear s.config e) : step s = .next (State.clearFault { s with schedule := rest }) := by
  obtain ⟨w, hclear, hreset, rfl⟩ := he
  rw [step_write hs]
  exact congrArg _ (State.writeCtrl_clr _ hclear hreset)

/-- A clear of a FATAL fault clears DROP only (60_exceptions.md R245). -/
theorem step_clear_fatal {s : State} {e : Event} {rest : List Event} (hs : s.schedule = e :: rest)
    (he : Config.isClear s.config e) (hfatal : s.fatal = true) :
    step s = .next { s with schedule := rest, drop := false } :=
  (step_clear hs he).trans (congrArg _ (State.clearFault_fatal hfatal))

/-- Settles O25: the step is the return from the fault; it leaves nothing pending where nothing was, so FAULT = 0 is all
the next CMD write needs. -/
theorem clearReturnsFromFault : Obligations.ClearReturnsFromFault := by
  intro s w rest hclear hreset hs
  have he : Config.isClear s.config (Config.writes s.config .ctrl w) := ⟨w, hclear, hreset, rfl⟩
  refine ⟨fun hfatal => ?_, step_clear_fatal hs he, fun t v rest' hp ht hf hcmd => ?_⟩
  · exact (step_clear hs he).trans (congrArg _ (State.clearFault_recoverable hfatal))
  · cases (step_clear hs he).symm.trans ht
    have hidle : (State.clearFault { s with schedule := rest }).pending = none := by simpa using hp
    exact ⟨_, step_cmd_accepted hcmd hidle hf, rfl⟩

end Sys2Proof.Machine
end

section
/-! SUPPORT. Fault entry (60_exceptions.md R231, R241): only the CORE step of a pending command sets FAULT, and it leaves
the state before the command with the fault record. -/

namespace Sys2Proof.Machine

/-- A CORE step that sets FAULT takes a fault on the pending command: committed results leave FAULT alone. -/
theorem State.coreStep_raises {s t : State} (ht : s.coreStep = .next t) (hs : s.fault = false) (hf : t.fault = true) :
    ∃ c code, s.pending = some c ∧ t = s.takeFault code := by
  rcases s.coreStep_cases with ⟨-, idle⟩ | ⟨c, hp, ⟨code, faults⟩ | ⟨i, u, -, commits, completes⟩⟩
  · cases idle.symm.trans ht
    simp [hs] at hf
  · cases faults.symm.trans ht
    exact ⟨c, code, hp, rfl⟩
  · cases completes.symm.trans ht
    rw [commits.others] at hf
    simp [hs] at hf

theorem State.takeFault_of_pending {s : State} {c : Command} (hp : s.pending = some c) (code : FaultCode) :
    s.takeFault code = { s with fault := true, fatal := decide (code = .capacity), fcode := code.code,
                                fcmd := c.word, fimm := c.imm, pending := none } := by
  simp only [State.takeFault, hp]
  rfl

/-- No HOST write sets FAULT. -/
theorem State.fault_of_writeWindow {s : State} {r : WindowReg} {w : Word} (h : (s.writeWindow r w).fault = true) :
    s.fault = true := by
  cases r with
  | cmd => rwa [State.writeWindow, State.submit_fault] at h
  | ctrl =>
    rw [State.writeWindow] at h
    rcases s.writeCtrl_cases w with ⟨-, hreset⟩ | ⟨-, -, hclear⟩ | hnone
    · rw [hreset] at h; cases h
    · rw [hclear] at h; exact State.fault_of_clearFault h
    · rwa [hnone] at h
  | imm | status | result | fcmd | fimm | params => exact h

/-- A step that sets FAULT is the CORE's, of a pending command, and leaves the fault record and nothing else. -/
theorem step_raises {s t : State} (ht : step s = .next t) (hs : s.fault = false) (hf : t.fault = true) :
    s.coreNext ∧ ∃ (c : Command) (code : FaultCode), s.pending = some c ∧
      t = { s with fault := true, fatal := decide (code = .capacity), fcode := code.code, fcmd := c.word, fimm := c.imm,
                   pending := none, schedule := s.schedule.tail } := by
  rcases step_cases ht with ⟨hnext, -⟩ | ⟨r, rest, -, rfl⟩ | ⟨r, w, rest, -, rfl⟩ | ⟨rest, -, rfl⟩
  · rw [step_coreNext hnext] at ht
    obtain ⟨c, code, hp, rfl⟩ := State.coreStep_raises ht hs hf
    exact ⟨hnext, c, code, hp, State.takeFault_of_pending hp code⟩
  · exact absurd (hs.symm.trans hf) (by decide)
  · have hf' := State.fault_of_writeWindow (s := { s with schedule := rest }) hf
    exact absurd (hs.symm.trans hf') (by decide)
  · cases hf

/-- Settles O15: the step is the CORE's, and the record holds the pending command. -/
theorem onlyCoreStepRaisesFaults : Obligations.OnlyCoreStepRaisesFaults := by
  intro s t ht hs hf
  obtain ⟨hnext, c, code, hp, rfl⟩ := step_raises ht hs hf
  exact ⟨hnext, c, hp, rfl, rfl, rfl⟩

/-- Settles O29: the record of the pending command is all that the step writes. -/
theorem faultEntryChangesOnlyTheRecord : Obligations.FaultEntryChangesOnlyTheRecord := by
  intro s t c hp hs _ ht hf
  obtain ⟨-, c', code, hp', rfl⟩ := step_raises ht hs hf
  cases hp.symm.trans hp'
  exact ⟨code, rfl⟩

end Sys2Proof.Machine
end

section
/-! SUPPORT. The machine while FAULT = 1 (60_exceptions.md R245, R246): nothing is pending and nothing is accepted, so
only a clear or a reset reaches the record. -/

namespace Sys2Proof.Machine

theorem State.Inv.pending_of_fault {s : State} (h : s.Inv) (hf : s.fault = true) : s.pending = none := by
  by_contra hp
  have hclean := h.pending_clean (Option.isSome_iff_ne_none.2 hp)
  simp [hf] at hclean

theorem State.Inv.fault_of_fatal {s : State} (h : s.Inv) (hfatal : s.fatal = true) : s.fault = true :=
  (h.fatal_iff.1 hfatal).1

/-- While FAULT = 1 a HOST write that is no reset and no clear reaches only IMM and DROP. -/
theorem State.writeWindow_faulted {s : State} {r : WindowReg} {w : Word} (hf : s.fault = true)
    (hreset : ¬ Config.isReset s.config (Config.writes s.config r w))
    (hclear : ¬ Config.isClear s.config (Config.writes s.config r w)) :
    ∃ imm drop, s.writeWindow r w = { s with imm := imm, drop := drop } := by
  cases r with
  | cmd => exact ⟨s.imm, true, State.submit_dropped (.inr hf) w⟩
  | imm => exact ⟨w, s.drop, rfl⟩
  | ctrl =>
    rcases s.writeCtrl_cases w with ⟨h1, -⟩ | ⟨h0, h1, -⟩ | hnone
    · exact absurd (.inr ⟨w, h1, rfl⟩) hreset
    · exact absurd ⟨w, h0, h1, rfl⟩ hclear
    · exact ⟨s.imm, s.drop, hnone⟩
  | status | result | fcmd | fimm | params => exact ⟨s.imm, s.drop, rfl⟩

/-- While FAULT = 1 a step that is no reset and no clear reaches only IMM, DROP and the model's own fields. -/
theorem step_faulted {s t : State} (h : s.Inv) (hf : s.fault = true) (ht : step s = .next t)
    (hkeep : ∀ e rest, s.schedule = e :: rest → ¬ Config.isReset s.config e ∧ ¬ Config.isClear s.config e) :
    ∃ imm drop events words, t = { s with imm := imm, drop := drop, schedule := events, reads := words } := by
  rcases step_cases ht with ⟨-, rest, hcore, -⟩ | ⟨r, rest, -, rfl⟩ | ⟨r, w, rest, hs, rfl⟩ | ⟨rest, hs, -⟩
  · cases (State.coreStep_idle (s := { s with schedule := rest }) (h.pending_of_fault hf)).symm.trans hcore
    exact ⟨_, _, _, _, rfl⟩
  · exact ⟨_, _, _, _, rfl⟩
  · obtain ⟨hreset, hclear⟩ := hkeep _ _ hs
    obtain ⟨imm, drop, hwrite⟩ := State.writeWindow_faulted (s := { s with schedule := rest }) hf hreset hclear
    exact ⟨imm, drop, rest, s.reads, hwrite⟩
  · exact absurd (.inl rfl) (hkeep _ _ hs).1

/-- Settles O27: the step reaches no field of the record, and a CMD write is dropped. -/
theorem firstFaultRecordIsKept : Obligations.FirstFaultRecordIsKept := by
  intro s t h hf ht hkeep
  have hidle := h.pending_of_fault hf
  have dropped (w : Word) (rest : List Event) (hs : s.schedule = Config.writes s.config .cmd w :: rest) :
      t = { s with schedule := rest, drop := true } := by
    cases (step_cmd_dropped hs (.inr hf)).symm.trans ht
    rfl
  obtain ⟨imm, drop, events, words, rfl⟩ := step_faulted h hf ht hkeep
  exact ⟨hf, rfl, rfl, rfl, rfl, hidle, rfl, rfl, dropped⟩

/-- Settles O26: FATAL is part of the record, which a clear leaves alone while FATAL = 1. -/
theorem fatalLastsUntilReset : Obligations.FatalLastsUntilReset := by
  intro s h hfatal
  have hf := h.fault_of_fatal hfatal
  have hidle := h.pending_of_fault hf
  refine ⟨fun t ht hnoreset => ?_, fun e rest hs he => step_clear_fatal hs he hfatal, fun e rest hs he => ?_⟩
  · by_cases hclear : ∃ e rest, s.schedule = e :: rest ∧ Config.isClear s.config e
    · obtain ⟨e, rest, hs, he⟩ := hclear
      cases (step_clear_fatal hs he hfatal).symm.trans ht
      exact ⟨hfatal, hf, rfl, hidle⟩
    · obtain ⟨imm, drop, events, words, rfl⟩ := step_faulted h hf ht fun e rest hs =>
        ⟨hnoreset e rest hs, fun he => hclear ⟨e, rest, hs, he⟩⟩
      exact ⟨hfatal, hf, rfl, hidle⟩
  · exact ⟨_, step_reset hs he, rfl, rfl, State.reg_resetCore _⟩

end Sys2Proof.Machine
end

section
/-! SUPPORT. The column "raised by" of 60_exceptions.md R232, read by command: which codes a decoded command raises. -/

namespace Sys2Proof.Machine

/-- The fault codes a command can raise once decoded (60_exceptions.md R232, R234). -/
def faultCodes : Instr → List FaultCode
  | .init _ => []
  | .enlarge _ _ => [.capacity]
  | .compact _ => []
  | .set _ _ => []
  | .setw _ _ => []
  | .dec _ _ => [.capacity, .badDigit, .badBase]
  | .cmp _ _ => []
  | .cmpw _ _ => []
  | .addw _ _ _ => [.capacity]
  | .mulw _ _ _ => [.capacity]
  | .mul _ _ _ => [.capacity]
  | .sub _ _ _ => [.negative]
  | .testbit _ _ => []
  | .setbit _ _ => [.capacity]
  | .shl _ _ _ => [.capacity]
  | .divmod _ _ _ _ => [.divZero]
  | .gcd _ _ _ => [.gcdZero]
  | .rdcap _ => []
  | .rddig _ _ => []

/-- How a command begun in s may end: with a fault of one of these codes, or complete with FAULT as it was. -/
def State.EndsWithin (s : State) (codes : List FaultCode) (o : Host.Outcome State Fault Refusal) : Prop :=
  (∃ code ∈ codes, o = .next (s.takeFault code)) ∨ ∃ t : State, t.fault = s.fault ∧ o = .next t.complete

section
variable {s : State} {codes : List FaultCode}

theorem State.EndsWithin.fault {code : FaultCode} (h : code ∈ codes) : s.EndsWithin codes (.next (s.takeFault code)) :=
  .inl ⟨code, h, rfl⟩

theorem State.EndsWithin.complete {t : State} (h : t.fault = s.fault) : s.EndsWithin codes (.next t.complete) :=
  .inr ⟨t, h, rfl⟩

theorem State.EndsWithin.writeKeep (h : .capacity ∈ codes) (rd : Reg) (v k : Nat) :
    s.EndsWithin codes (s.finish (s.writeKeep rd v k)) := by
  rcases s.writeKeep_cases rd v k with hw | ⟨m, -, -, -, hw⟩ <;> rw [hw]
  · exact .fault h
  · exact .complete rfl

theorem State.EndsWithin.writeCompact (h : .capacity ∈ codes) (rd : Reg) (v : Nat) :
    s.EndsWithin codes (s.finish (s.writeCompact rd v)) := by
  rcases s.writeCompact_cases rd v with hw | ⟨m, -, -, -, hw⟩ <;> rw [hw]
  · exact .fault h
  · exact .complete rfl

/-- A value that fits raises nothing. -/
theorem State.EndsWithin.writeCompact_of_le {v : Nat} (h : len v ≤ s.maxDigits) (rd : Reg) :
    s.EndsWithin codes (s.finish (s.writeCompact rd v)) := by
  rw [s.writeCompact_ok rd h]
  exact .complete rfl

end

/-- Every command ends within its codes. SET, SETW, SUB, DIVMOD and GCD write no more than fits, so CAPACITY is not among
theirs. -/
theorem exec_endsWithin {s : State} (h : s.Inv) (i : Instr) : s.EndsWithin (faultCodes i) (exec i s) := by
  have fits {v : Nat} {rs : Reg} (hv : v ≤ s.val rs) : len v ≤ s.maxDigits := (len_mono hv).trans (h.len_val_le rs)
  cases i with
  | init rd => exact .complete rfl
  | enlarge rd imm => exact .writeKeep (by simp [faultCodes]) ..
  | compact rd => exact .complete rfl
  | set rd rs1 =>
    have hset : exec (.set rd rs1) s = _ := h.finish_writeKeep_val rd rs1 (h.cap_le rs1) (le_max_right _ _)
    rw [hset]
    exact .complete rfl
  | setw rd imm =>
    have htwo : 2 ≤ s.maxDigits := Nat.le_of_succ_le h.three_le
    rw [exec_setw, s.finish_writeKeep_next rd (h.cap_le rd) htwo ((len_word imm).trans htwo)]
    exact .complete rfl
  | dec rd imm =>
    by_cases hbase : decBase imm = 10
    · by_cases hchar : decChar imm < 0x30 ∨ 0x39 < decChar imm
      · rw [exec_dec_badDigit hbase hchar]
        exact .fault (by simp [faultCodes])
      · rw [exec_dec_digit hbase (by omega) (by omega)]
        exact .writeKeep (by simp [faultCodes]) ..
    · rw [exec_dec_badBase hbase]
      exact .fault (by simp [faultCodes])
  | cmp rs1 rs2 => exact .complete rfl
  | cmpw rs1 imm => exact .complete rfl
  | addw rd rs1 imm => exact .writeKeep (by simp [faultCodes]) ..
  | mulw rd rs1 imm => exact .writeKeep (by simp [faultCodes]) ..
  | mul rd rs1 rs2 => exact .writeCompact (by simp [faultCodes]) ..
  | sub rd rs1 rs2 =>
    rcases lt_or_ge (s.val rs1) (s.val rs2) with hlt | hle
    · rw [exec_sub_of_lt h rd hlt]
      exact .fault (by simp [faultCodes])
    · rw [exec_sub_of_le h rd hle]
      exact .writeCompact_of_le (fits (Nat.sub_le ..)) rd
  | testbit rs1 imm => exact .complete rfl
  | setbit rd imm => exact .writeKeep (by simp [faultCodes]) ..
  | shl rd rs1 imm =>
    rw [exec_shl h]
    exact .writeCompact (by simp [faultCodes]) ..
  | divmod rd rd2 rs1 rs2 =>
    by_cases hzero : s.val rs2 = 0
    · rw [exec_divmod_zero hzero]
      exact .fault (by simp [faultCodes])
    · rw [exec_divmod h hzero, s.writeCompactPair_ok rd rd2 (fits (Nat.div_le_self ..)) (fits (Nat.mod_le ..))]
      exact .complete rfl
  | gcd rd rs1 rs2 =>
    by_cases hzero : s.val rs1 = 0 ∨ s.val rs2 = 0
    · rw [exec_gcd_zero hzero]
      exact .fault (by simp [faultCodes])
    · obtain ⟨h1, h2⟩ := not_or.1 hzero
      rw [exec_gcd h1 h2]
      exact .writeCompact_of_le (fits (Nat.gcd_le_left _ (Nat.pos_of_ne_zero h1))) rd
  | rdcap rs1 => exact .complete rfl
  | rddig rs1 imm => exact .complete rfl

/-- A command that sets FAULT has taken a fault of one of its codes. -/
theorem exec_raises {s t : State} {i : Instr} (h : s.Inv) (hs : s.fault = false) (ht : exec i s = .next t)
    (hf : t.fault = true) : ∃ code ∈ faultCodes i, t.fcode = code.code := by
  rcases exec_endsWithin h i with ⟨code, hcode, faults⟩ | ⟨u, hu, completes⟩
  · cases faults.symm.trans ht
    exact ⟨code, hcode, rfl⟩
  · cases completes.symm.trans ht
    simp [hu, hs] at hf

/-- Settles O31: the code is one of the command's, command by command. -/
theorem commandsRaiseOnlyTheirFaults : Obligations.CommandsRaiseOnlyTheirFaults := by
  intro i s t h hs ht hf
  obtain ⟨code, hcode, hrecord⟩ := exec_raises h hs ht hf
  rw [hrecord]
  -- `hcode` closes the commands that raise nothing and names the one code of all others but DEC
  cases i <;> simp only [faultCodes, List.mem_cons, List.not_mem_nil, or_false] at hcode
  case dec => rcases hcode with rfl | rfl | rfl <;> simp [FaultCode.code]
  all_goals
    subst hcode
    simp [FaultCode.code]

end Sys2Proof.Machine
end

section
/-! SUPPORT. The machine while BUSY = 1 (70_reset_and_hazards.md R277, R278): no HOST access but a reset reaches the
pending command or what it may write; and the end of an issue (R276) as the HOST reads it. -/

namespace Sys2Proof.Machine

/-! ## The operand (R277) -/

/-- Settles O24: an accepted CMD write takes the operand from IMM, and a write to IMM writes that field alone. -/
theorem immIsLatchedAtCmdWrite : Obligations.ImmIsLatchedAtCmdWrite := by
  intro s w rest
  refine ⟨fun hs hb hf => ?_, step_write⟩
  have hidle : s.pending = none := by simpa [State.busy] using hb
  exact ⟨_, step_cmd_accepted hs hidle hf, rfl⟩

/-! ## HOST accesses while a command is pending (R278) -/

/-- Where no fault is recorded, a clear reaches DROP only (10_state.md R31, 60_exceptions.md R244). -/
theorem State.Inv.clearFault_of_clean {s : State} (h : s.Inv) (hf : s.fault = false) :
    s.clearFault = { s with drop := false } := by
  have hfatal : s.fatal = false := Bool.eq_false_iff.2 fun hfatal => by simp [h.fault_of_fatal hfatal] at hf
  rw [State.clearFault_recoverable hfatal, ← hf, ← h.no_fault_code hf]

/-- While BUSY = 1 a HOST write that is no reset reaches only IMM and DROP. -/
theorem State.Inv.writeWindow_busy {s : State} {r : WindowReg} {w : Word} (h : s.Inv) (hb : s.busy = true)
    (hreset : ¬ Config.isReset s.config (Config.writes s.config r w)) :
    ∃ imm drop, s.writeWindow r w = { s with imm := imm, drop := drop } := by
  cases r with
  | cmd => exact ⟨s.imm, true, State.submit_dropped (.inl hb) w⟩
  | imm => exact ⟨w, s.drop, rfl⟩
  | ctrl =>
    rcases s.writeCtrl_cases w with ⟨hsreset, -⟩ | ⟨-, -, hclear⟩ | hnone
    · exact absurd (.inr ⟨w, hsreset, rfl⟩) hreset
    · exact ⟨s.imm, false, hclear.trans (h.clearFault_of_clean (h.pending_clean hb))⟩
    · exact ⟨s.imm, s.drop, hnone⟩
  | status | result | fcmd | fimm | params => exact ⟨s.imm, s.drop, rfl⟩

/-- While BUSY = 1 a step that is neither the CORE's nor a reset reaches only IMM, DROP and the model's own fields. -/
theorem step_busy {s t : State} {e : Event} {rest : List Event} (h : s.Inv) (hb : s.busy = true)
    (hs : s.schedule = e :: rest) (hcore : e ≠ .coreTurn) (hreset : ¬ Config.isReset s.config e)
    (ht : step s = .next t) :
    ∃ imm drop events words, t = { s with imm := imm, drop := drop, schedule := events, reads := words } := by
  rcases step_cases ht with ⟨hnext, -⟩ | ⟨r, es, -, rfl⟩ | ⟨r, w, es, hwrite, rfl⟩ | ⟨es, hplatform, -⟩
  · simp [State.coreNext, hs, hcore] at hnext
  · exact ⟨_, _, _, _, rfl⟩
  · cases hs.symm.trans hwrite
    obtain ⟨imm, drop, hw⟩ := (h.withSchedule rest).writeWindow_busy hb hreset
    exact ⟨imm, drop, rest, s.reads, hw⟩
  · cases hs.symm.trans hplatform
    exact absurd (.inl rfl) hreset

/-- A scheduled read of a window register logs the word that stands in it. -/
theorem reads_of_step_read {s t : State} {r : WindowReg} {rest : List Event}
    (hs : s.schedule = Config.reads s.config r :: rest) (ht : step s = .next t) :
    t = { s with schedule := rest, reads := s.readWindow r :: s.reads } := by
  cases (step_read hs).symm.trans ht
  cases r <;> rfl

/-- Settles O28: the step keeps every field that the pending command may write, and a read logs the word that stands. -/
theorem hostSeesOldValuesWhileBusy : Obligations.HostSeesOldValuesWhileBusy := by
  intro s t e rest h hb hs hcore hreset ht
  have logged (r : WindowReg) (he : e = Config.reads s.config r) :
      t = { s with schedule := rest, reads := s.readWindow r :: s.reads } := reads_of_step_read (he ▸ hs) ht
  have hresult (he : e = Config.reads s.config .result) : t.reads = s.result :: s.reads :=
    congrArg State.reads (logged .result he)
  have hfcmd (he : e = Config.reads s.config .fcmd) : t.reads = s.fcmd :: s.reads :=
    congrArg State.reads (logged .fcmd he)
  have hfimm (he : e = Config.reads s.config .fimm) : t.reads = s.fimm :: s.reads :=
    congrArg State.reads (logged .fimm he)
  have hstatus (he : e = Config.reads s.config .status) :
      t.reads = s.statusWord :: s.reads ∧ t.statusWord = s.statusWord := by
    rw [logged .status he]; exact ⟨rfl, rfl⟩
  obtain ⟨hbusy, hfault, -⟩ := statusWordHoldsFields t
  obtain ⟨imm, drop, events, words, rfl⟩ := step_busy h hb hs hcore hreset ht
  exact ⟨rfl, rfl, rfl, rfl, rfl, rfl, rfl, hbusy.trans (if_pos hb), by simpa [h.pending_clean hb] using hfault,
    hresult, hfcmd, hfimm, hstatus⟩

/-! ## The issue of one command (R276) -/

theorem exec_config {i : Instr} {s t : State} (h : exec i s = .next t) : t.config = s.config := by
  obtain ⟨u, hu, -, -, -, -, -, hconf, -⟩ := commandChangesOnlyItsDestinations i s
  cases hu.symm.trans h
  exact hconf

/-- Settles O58: the polls read the STATUS of the accepted command, the last read that of the state the command leaves;
the parameters stand, so a read of RESULT next reaches that register. -/
theorem issueRunsOneCommand : Obligations.IssueRunsOneCommand := by
  intro s i polls rest hwf hp hf hs
  obtain ⟨t, hexec, hidle, hrun⟩ := runFor_issue hwf hp hf hs
  obtain ⟨hbusy, hclean, -⟩ := statusWordHoldsFields (s.accept i)
  obtain ⟨hdone, hfault, -, -, -, hcode, -⟩ := statusWordHoldsFields t
  have hconf : t.config = (s.issued i polls rest).config := exec_config hexec
  refine ⟨s.issued i polls rest, t, (s.accept i).statusWord, t.statusWord, rfl, hexec, hbusy,
    hclean.trans (by simp [State.accept, hf]), hdone.trans (by simp [hidle]), hfault, hcode, hrun,
    fun rest' hrest => ?_⟩
  have hread : rest = Config.reads t.config .result :: rest' := by rw [hrest, hconf]; rfl
  have result := step_read (s := State.hostRead { t with schedule := rest } .status) hread
  exact runFor_succ_of_runFor hrun result

end Sys2Proof.Machine
end
